-- ==== Sys2Proof/Word.lean ====
section
/-! DEFINITION. The word types of the block's interface (20_memory.md R46, 30_encoding.md R60) and the
edge polarity a capture event carries. -/

namespace Sys2Proof

/-- The transaction word `W[63:0]` (R60). -/
abbrev Word := BitVec 64

/-- An 8-bit value: a ROM entry, an address or command byte. -/
abbrev Byte := BitVec 8

/-- A capture timestamp, `CNT_W` = 16 bits (R6, R62). -/
abbrev Timestamp := BitVec 16

/-- A pulse width as the state machine takes it, `PW_W` = 32 bits, in ticks (R6, R63). -/
abbrev Width := BitVec 32

/-- The edge polarity of a capture event (R60): code 0 is Rising, code 1 is Falling. -/
inductive Polarity where
  | rising
  | falling
deriving DecidableEq, Repr

end Sys2Proof
end

