-- ==== Sys2Proof/Config.lean ====
section
/-! DEFINITION. The implementation parameters of 00_scope.md R6, fixed at build time (R7). The ROM's
contents are the one parameter that may differ between builds: they are in `State.rom`, over the
default contents of Machine/Rom.lean. -/

namespace Sys2Proof.Config

/-- `CNT_W`, the width of the capture counter and of a timestamp operand. -/
def cntW : Nat := 16

/-- `MOD` = 2^CNT_W, the counter's modulus. -/
def modulus : Nat := 2 ^ cntW

/-- `HALF` = MOD/2, the threshold of the wraparound fold. -/
def half : Nat := modulus / 2

/-- `LM_LO`, the leader-mark window's lower bound. UNVERIFIED: the ten bounds are unaudited literals
(U9, log entry 6). -/
def lmLo : Width := 7900
/-- `LM_HI` -/
def lmHi : Width := 10100
/-- `LS_LO`, the leader-space window's lower bound. -/
def lsLo : Width := 3400
/-- `LS_HI` -/
def lsHi : Width := 5600
/-- `BM_LO`, the bit-mark window's lower bound. -/
def bmLo : Width := 350
/-- `BM_HI` -/
def bmHi : Width := 750
/-- `S0_LO`, the short-space (bit 0) window's lower bound. -/
def s0Lo : Width := 350
/-- `S0_HI` -/
def s0Hi : Width := 750
/-- `S1_LO`, the long-space (bit 1) window's lower bound. -/
def s1Lo : Width := 1400
/-- `S1_HI` -/
def s1Hi : Width := 1900

/-- `FRAME_BITS`, the data bits of a frame, as the 6-bit value `BITS` is compared with. -/
def frameBits : BitVec 6 := 32

/-- `FALLBACK`, the byte of an unmapped command ('x', G1). -/
def fallback : Byte := 0x78

/-- `TICK` in microseconds. A property of the environment: no rule uses it (U5). -/
def tickMicroseconds : Nat := 1

end Sys2Proof.Config
end

