-- ==== Sys2Proof/Syntax.lean ====
section
/-! DEFINITION. The eight operations of 30_encoding.md R61, one constructor per row of the opcode
table, with the operands of R62, R63 and R64. Every operand has exactly the width of its field, so a
timestamp of `MOD` or more cannot be written down (U6). -/

namespace Sys2Proof

/-- A decoded operation. -/
inductive Instr where
  /-- NOP, op 0 (44_sequencing.md R155). -/
  | nop
  /-- FEED_CAP, op 1 (41_decoder_fsm.md R100). -/
  | feedCap (pol : Polarity) (time1 time2 : Timestamp)
  /-- FEED_W, op 2 (41_decoder_fsm.md R101). -/
  | feedW (width : Width)
  /-- TAKE, op 3 (42_frame_take.md R125). -/
  | take
  /-- STEP_CAP, op 4 (44_sequencing.md R150). -/
  | stepCap (pol : Polarity) (time1 time2 : Timestamp)
  /-- STEP_W, op 5 (44_sequencing.md R151). -/
  | stepW (width : Width)
  /-- MAP, op 6 (43_command_map.md R142). -/
  | map (cmd : Byte)
  /-- CLEAR, op 7 (44_sequencing.md R156). -/
  | clear
deriving DecidableEq, Repr

end Sys2Proof
end

