-- ==== Sys2Proof/WellFormed.lean ====
section
/-! DEFINITION. Well-formedness. The operands of 30_encoding.md R71 and R72 as an assembler meets them
are unbounded numbers, and the checks are the ranges of R71: "The assembler refuses an operand outside
its range". A decoded `Instr` has fields of the exact widths, so it always passes the checks of the
line it is written as. -/

namespace Sys2Proof

/-- One line of assembly (R71) or one pseudo-instruction (R72), before its operands are checked. -/
inductive AsmLine where
  | nop
  | feedCap (time1 time2 : Nat) (pol : Polarity)
  | feedW (width : Nat)
  | take
  | stepCap (time1 time2 : Nat) (pol : Polarity)
  | stepW (width : Nat)
  | map (cmd : Nat)
  | clear
  | leader
  | bit0
  | bit1
  | frame (v : Nat)
  | necFrame (a c : Nat)
  | rawFrame (v : Nat)
deriving DecidableEq, Repr

/-- The ranges of R71 and R72: timestamps in 0..65535, widths and frames in 0..4294967295, command and
address bytes in 0..255. -/
def AsmLine.wellFormed : AsmLine → Bool
  | .nop => true
  | .feedCap time1 time2 _ => decide (time1 < 2 ^ 16) && decide (time2 < 2 ^ 16)
  | .feedW width => decide (width < 2 ^ 32)
  | .take => true
  | .stepCap time1 time2 _ => decide (time1 < 2 ^ 16) && decide (time2 < 2 ^ 16)
  | .stepW width => decide (width < 2 ^ 32)
  | .map cmd => decide (cmd < 2 ^ 8)
  | .clear => true
  | .leader => true
  | .bit0 => true
  | .bit1 => true
  | .frame v => decide (v < 2 ^ 32)
  | .necFrame a c => decide (a < 2 ^ 8) && decide (c < 2 ^ 8)
  | .rawFrame v => decide (v < 2 ^ 32)

/-- The line of assembly that writes an operation. -/
def Instr.toLine : Instr → AsmLine
  | .nop => .nop
  | .feedCap pol time1 time2 => .feedCap time1.toNat time2.toNat pol
  | .feedW width => .feedW width.toNat
  | .take => .take
  | .stepCap pol time1 time2 => .stepCap time1.toNat time2.toNat pol
  | .stepW width => .stepW width.toNat
  | .map cmd => .map cmd.toNat
  | .clear => .clear

/-- An operation is well formed when its line passes the checks. -/
def Instr.wellFormed (i : Instr) : Bool := i.toLine.wellFormed

end Sys2Proof
end

