-- ==== Sys2Proof/Decode.lean ====
section
/-! DEFINITION. The transaction word (30_encoding.md): its fields, the opcode table of R68, the decoder
of R67 and the encoder of R71, and the word carried as eight bytes (20_memory.md R45). -/

namespace Sys2Proof

/-- The operations by name, without operands: the rows of R61. -/
inductive Op where
  | nop | feedCap | feedW | take | stepCap | stepW | map | clear
deriving DecidableEq, Repr

/-- The operation code `W[2:0]` of R61. -/
def Op.code : Op → BitVec 3
  | .nop => 0
  | .feedCap => 1
  | .feedW => 2
  | .take => 3
  | .stepCap => 4
  | .stepW => 5
  | .map => 6
  | .clear => 7

/-- The operation a code selects: all eight codes are assigned (R61). -/
def opOfCode (c : BitVec 3) : Op :=
  if c = 0 then .nop
  else if c = 1 then .feedCap
  else if c = 2 then .feedW
  else if c = 3 then .take
  else if c = 4 then .stepCap
  else if c = 5 then .stepW
  else if c = 6 then .map
  else .clear

/-- One row of the opcode table (R68). -/
structure TableRow where
  op : Op
  matchBits : Word
  maskBits : Word
deriving DecidableEq, Repr

/-- The opcode table of R68. -/
def opcodeTable : List TableRow :=
  [⟨.nop, 0x0000000000000000, 0xFFFFFFFFFFFFFFFF⟩,
   ⟨.feedCap, 0x0000000000000001, 0x00000000FFFFFFF7⟩,
   ⟨.feedW, 0x0000000000000002, 0x00000000FFFFFFFF⟩,
   ⟨.take, 0x0000000000000003, 0xFFFFFFFFFFFFFFFF⟩,
   ⟨.stepCap, 0x0000000000000004, 0x00000000FFFFFFF7⟩,
   ⟨.stepW, 0x0000000000000005, 0x00000000FFFFFFFF⟩,
   ⟨.map, 0x0000000000000006, 0xFFFFFF00FFFFFFFF⟩,
   ⟨.clear, 0x0000000000000007, 0xFFFFFFFFFFFFFFFF⟩]

/-- A word matches a row: `(W & mask) == match` (R67). -/
def TableRow.matches (r : TableRow) (w : Word) : Bool := (w &&& r.maskBits) == r.matchBits

/-- `W[2:0]` -/
def opField (w : Word) : BitVec 3 := w.extractLsb' 0 3
/-- `W[3]` -/
def polField (w : Word) : BitVec 1 := w.extractLsb' 3 1
/-- `W[31:4]` -/
def rsvField (w : Word) : BitVec 28 := w.extractLsb' 4 28
/-- `W[47:32]` -/
def time1Field (w : Word) : Timestamp := w.extractLsb' 32 16
/-- `W[63:48]` -/
def time2Field (w : Word) : Timestamp := w.extractLsb' 48 16
/-- `W[63:32]` -/
def widthField (w : Word) : Width := w.extractLsb' 32 32
/-- `W[39:32]` -/
def cmdField (w : Word) : Byte := w.extractLsb' 32 8
/-- `W[63:40]` -/
def rsvHiField (w : Word) : BitVec 24 := w.extractLsb' 40 24

/-- The polarity of a code: 0 is Rising, 1 is Falling (R60). -/
def polarityOfBit (b : BitVec 1) : Polarity := if b = 0 then .rising else .falling

/-- The code of a polarity (R60). -/
def bitOfPolarity : Polarity → BitVec 1
  | .rising => 0
  | .falling => 1

/-- Why a word is no operation: the reserved field that is not 0 (R69), in the order R67 tests them. -/
inductive Rejection where
  /-- `W[31:4] != 0`, any operation. -/
  | reservedLow
  /-- `W[3] != 0` in an operation other than FEED_CAP and STEP_CAP. -/
  | polarityNotUsed
  /-- `W[63:32] != 0` in NOP, TAKE or CLEAR. -/
  | reservedOperand
  /-- `W[63:40] != 0` in MAP. -/
  | reservedMapHigh
  /-- Fewer than eight bytes where a word is carried as bytes: the word is always taken whole (R46). -/
  | incomplete
deriving DecidableEq, Repr

/-- The operation whose fields are those of the word (R62, R63, R64). -/
def instrOfFields (op : Op) (w : Word) : Instr :=
  match op with
  | .nop => .nop
  | .feedCap => .feedCap (polarityOfBit (polField w)) (time1Field w) (time2Field w)
  | .feedW => .feedW (widthField w)
  | .take => .take
  | .stepCap => .stepCap (polarityOfBit (polField w)) (time1Field w) (time2Field w)
  | .stepW => .stepW (widthField w)
  | .map => .map (cmdField w)
  | .clear => .clear

/-- The operations that use `W[3]` (R67: `op` in {1, 4}). -/
def Op.usesPolarity : Op → Bool
  | .feedCap => true
  | .stepCap => true
  | .nop => false
  | .feedW => false
  | .take => false
  | .stepW => false
  | .map => false
  | .clear => false

/-- The operations with no operand (R67: `op` in {0, 3, 7}). -/
def Op.noOperand : Op → Bool
  | .nop => true
  | .take => true
  | .clear => true
  | .feedCap => false
  | .feedW => false
  | .stepCap => false
  | .stepW => false
  | .map => false

/-- `Decode(W)` of R67, its tests in R67's order. Total: every word is an operation or is rejected. -/
def decode (w : Word) : Except Rejection Instr :=
  let op := opOfCode (opField w)
  if rsvField w ≠ 0 then .error .reservedLow
  else if op.usesPolarity = false ∧ polField w ≠ 0 then .error .polarityNotUsed
  else if op.noOperand = true ∧ widthField w ≠ 0 then .error .reservedOperand
  else if op = .map ∧ rsvHiField w ≠ 0 then .error .reservedMapHigh
  else .ok (instrOfFields op w)

/-- The operation of an instruction, without its operands. -/
def Instr.op : Instr → Op
  | .nop => .nop
  | .feedCap _ _ _ => .feedCap
  | .feedW _ => .feedW
  | .take => .take
  | .stepCap _ _ _ => .stepCap
  | .stepW _ => .stepW
  | .map _ => .map
  | .clear => .clear

/-- The value of `W[3]` (R60). -/
def Instr.polBit : Instr → BitVec 1
  | .nop => 0
  | .feedCap pol _ _ => bitOfPolarity pol
  | .feedW _ => 0
  | .take => 0
  | .stepCap pol _ _ => bitOfPolarity pol
  | .stepW _ => 0
  | .map _ => 0
  | .clear => 0

/-- The operand of R71: `{t2, t1}` for the capture forms, `w` for the width forms, `c` for MAP. -/
def Instr.operand : Instr → BitVec 32
  | .nop => 0
  | .feedCap _ time1 time2 => time2 ++ time1
  | .feedW width => width
  | .take => 0
  | .stepCap _ time1 time2 => time2 ++ time1
  | .stepW width => width
  | .map cmd => cmd.setWidth 32
  | .clear => 0

/-- The word of an operation: `op | (pol << 3) | (operand << 32)` (R71). -/
def encode (i : Instr) : Word :=
  i.op.code.setWidth 64 ||| (i.polBit.setWidth 64 <<< 3) ||| (i.operand.setWidth 64 <<< 32)

/-- The first `n` bytes of a value carried over a byte bus: byte `k` is `v[8k+7:8k]`, and byte 0 goes
first (20_memory.md R45). Bits above the value's width are 0. -/
def bytesLE {m : Nat} (v : BitVec m) (n : Nat) : List Byte :=
  (List.range n).map fun k => v.extractLsb' (8 * k) 8

/-- The number whose bytes these are, byte 0 least significant (R45). -/
def natOfBytes : List Byte → Nat
  | [] => 0
  | b :: bs => b.toNat + 256 * natOfBytes bs

/-- The eight bytes of a word (R45). -/
def bytesOfWord (w : Word) : List Byte := bytesLE w 8

/-- The word whose bytes are given, byte 0 first (R45). -/
def wordOfBytes (b0 b1 b2 b3 b4 b5 b6 b7 : Byte) : Word :=
  b7 ++ b6 ++ b5 ++ b4 ++ b3 ++ b2 ++ b1 ++ b0

/-- Decode the first word of a byte stream: the instruction and the bytes after it. -/
def decodeBytes : List Byte → Except Rejection (Instr × List Byte)
  | b0 :: b1 :: b2 :: b3 :: b4 :: b5 :: b6 :: b7 :: rest =>
    match decode (wordOfBytes b0 b1 b2 b3 b4 b5 b6 b7) with
    | .ok i => .ok (i, rest)
    | .error e => .error e
  | _ => .error .incomplete

/-- The transaction word whose low `nbits` bits are those of `w`, the rest 0. -/
def wordOfTable (nbits w : Nat) : Word := BitVec.ofNat 64 (w % 2 ^ nbits)

/-- The instruction the decoder reads from a word numbered as the opcode table numbers it, carried as
the eight bytes of R45. -/
def decodeTableWord (nbits w : Nat) : Option Instr :=
  match decodeBytes (bytesOfWord (wordOfTable nbits w)) with
  | .ok (i, _) => some i
  | .error _ => none

end Sys2Proof
end

