-- ==== Sys2Proof/Machine/State.lean ====
section
/-! DEFINITION. The state of the block (10_state.md) as plain data: the three registers, the response
outputs, the command ROM, and what the environment presents to the port. -/

namespace Sys2Proof.Machine

/-- The protocol phase `ST` (R21). Codes 6 and 7 are never held, so they have no constructor (U1). -/
inductive Phase where
  | reset
  | start1
  | start2
  | pulseMarker
  | data0
  | data1
deriving DecidableEq, Repr

/-- The registers, the source's `DecoderState` (R20). -/
structure Decoder where
  /-- `ST` (R21). -/
  st : Phase
  /-- `BITS`, 6 bits (R22). -/
  bits : BitVec 6
  /-- `ACC`, 32 bits (R23). -/
  acc : BitVec 32
deriving DecidableEq, Repr

/-- The registers' zero state (R34). -/
def Decoder.zero : Decoder := { st := .reset, bits := 0, acc := 0 }

/-- The result codes of 30_encoding.md R66. Codes 6 and 7 are never driven (U2). -/
inductive ResultKind where
  | none
  | ok
  | noData
  | pending
  | implausible
  | illegal
deriving DecidableEq, Repr

/-- The response record (R29). -/
structure Response where
  kind : ResultKind
  outValid : Bool
  addr : Byte
  cmd : Byte
  outByte : Byte
  width : Width
  stO : BitVec 3
  bitsO : BitVec 6
  accO : BitVec 32
deriving DecidableEq, Repr

/-- Every field 0: the default an operation starts from (R30) and the response after reset (R34). -/
def Response.zero : Response :=
  { kind := .none, outValid := false, addr := 0, cmd := 0, outByte := 0, width := 0,
    stO := 0, bitsO := 0, accO := 0 }

/-- The command ROM (20_memory.md R40): the rows a build adds over the default contents, as (index,
entry) pairs, indexes rising, no row equal to the default entry. -/
abbrev Memory := List Host.Cell

/-- What the environment presents in one step: the level of `rst` (70_reset_and_hazards.md R190) and
the transaction word on the port, if any (R60). -/
structure PortInput where
  rst : Bool
  word : Option Word
deriving DecidableEq, Repr

/-- The reasons a step stops with a fault: there are none. The block has "no global error/fault
state" and raises no exception but the ILLEGAL outcome, after which it goes on (60_exceptions.md R170,
R171). DEDUCED, log entry 3. -/
inductive Fault where
deriving DecidableEq, Repr

/-- The reasons a step is refused. -/
inductive Refusal where
  /-- Raised by an arm of `exec` whose instruction has no meaning yet; no arm raises it. Safe: it stops. -/
  | notModelled (mnemonic : String)
deriving DecidableEq, Repr

/-- The whole state. -/
structure State where
  /-- `ST`, `BITS` and `ACC` (R20). -/
  dec : Decoder
  /-- The response outputs, held until the next operation or reset (R29). -/
  resp : Response
  /-- `CMD_ROM`, fixed at build time (R7, R34): log entry 4. -/
  rom : Memory
  /-- What the environment presents, oldest first. DESIGN CHOICE: the model's own field, log entry 1. -/
  inputs : List PortInput
deriving DecidableEq, Repr

/-- The state after hardware reset (R34, R190), with the default ROM (R141) and nothing presented. -/
def State.reset : State :=
  { dec := .zero, resp := .zero, rom := [], inputs := [] }

end Sys2Proof.Machine
end

