-- ==== Sys2Proof/Machine/Flags.lean ====
section
/-! DEFINITION. The block has no flags (10_state.md R25). What stands in their place is the response:
the codes of its fields and the one way an operation ends by driving it (R29, R30). -/

namespace Sys2Proof.Machine

/-- The code of a phase, as `resp.st_o` shows it (R21). -/
def Phase.code : Phase → BitVec 3
  | .reset => 0
  | .start1 => 1
  | .start2 => 2
  | .pulseMarker => 3
  | .data0 => 4
  | .data1 => 5

/-- The code of a result (30_encoding.md R66). -/
def ResultKind.code : ResultKind → BitVec 3
  | .none => 0
  | .ok => 1
  | .noData => 2
  | .pending => 3
  | .implausible => 4
  | .illegal => 5

/-- The response with its status outputs set from the registers (R30). -/
def Response.withStatus (r : Response) (d : Decoder) : Response :=
  { r with stO := d.st.code, bitsO := d.bits, accO := d.acc }

/-- How every operation ends: all register writes together (R10, R48), then the response with the
status outputs of the new registers (R30). The ROM is not written (R42). -/
def complete (s : State) (d : Decoder) (r : Response) : State :=
  { s with dec := d, resp := r.withStatus d }

end Sys2Proof.Machine
end

