-- ==== Sys2Proof/Machine/Operands.lean ====
section
/-! DEFINITION. What the operations make of their operands: the pulse width of two timestamps
(40_pulse_width.md) and the timing windows a width is tested against (41_decoder_fsm.md R90, R91). -/

namespace Sys2Proof.Machine

/-- `|a - b|` of R9, exact. -/
def absDiff (a b : Nat) : Nat := if b ≤ a then a - b else b - a

/-- `PW(time1, time2)` of R80: the difference folded at half the counter's modulus, strictly above. -/
def pulseWidth (time1 time2 : Timestamp) : BitVec 16 :=
  let d := absDiff time2.toNat time1.toNat
  BitVec.ofNat 16 (if d > Config.half then Config.modulus - d else d)

/-- The width FEED_CAP and STEP_CAP feed: `zext_32(PW(time1, time2))` (R82). -/
def captureWidth (time1 time2 : Timestamp) : Width := (pulseWidth time1 time2).setWidth 32

/-- `InWin(w, LO, HI)` of R91: both bounds inside, unsigned. -/
def inWin (w lo hi : Width) : Bool := decide (lo ≤ w) && decide (w ≤ hi)

/-- The leader-mark window. -/
def isLeaderMark (w : Width) : Bool := inWin w Config.lmLo Config.lmHi
/-- The leader-space window. -/
def isLeaderSpace (w : Width) : Bool := inWin w Config.lsLo Config.lsHi
/-- The bit-mark window. -/
def isBitMark (w : Width) : Bool := inWin w Config.bmLo Config.bmHi
/-- The short-space window, bit 0. -/
def isShortSpace (w : Width) : Bool := inWin w Config.s0Lo Config.s0Hi
/-- The long-space window, bit 1. -/
def isLongSpace (w : Width) : Bool := inWin w Config.s1Lo Config.s1Hi

end Sys2Proof.Machine
end

