-- ==== Sys2Proof/Machine/Rom.lean ====
section
/-! DEFINITION. The command ROM, the block's one memory (20_memory.md R40 to R43, 43_command_map.md):
its contents, its read, and the building of its rows. No operation writes it (R42). -/

namespace Sys2Proof.Machine

/-- The contents of this hardware's ROM (R141): 0xA2 gives 0x70, every other index `FALLBACK`. This is
what an index with no row reads as. -/
def romDefault (i : Byte) : Byte := if i = 0xA2 then 0x70 else Config.fallback

/-- `RomRead(i)`: the entry of the row for `i`, or the default contents (R41, R140). Total. -/
def Memory.read : Memory → Byte → Byte
  | [], i => romDefault i
  | (a, v) :: rows, i => if a = i.toNat then v else Memory.read rows i

/-- The canonical form: indexes strictly rising, each below 256, no row equal to the default entry. -/
abbrev Memory.wf (m : Memory) : Prop :=
  m.Pairwise (fun x y => x.1 < y.1) ∧
    ∀ c ∈ m, c.1 < 256 ∧ c.2 ≠ romDefault (BitVec.ofNat 8 c.1)

/-- The named constraint of R7 on every build: `CMD_ROM[0xA2] = 0x70`. -/
abbrev Memory.namedRow (m : Memory) : Prop := m.read 0xA2 = 0x70

/-- A row, unless the entry is the default one, for which no row stands. -/
def Memory.row (i v : Byte) (rows : Memory) : Memory :=
  if v = romDefault i then rows else (i.toNat, v) :: rows

/-- Build-time: set the entry of one index ("adding table rows", R141, R192 step 1). It keeps the
canonical form. No operation of the block does this. -/
def Memory.setRow (i v : Byte) : Memory → Memory
  | [] => Memory.row i v []
  | (a, x) :: rows =>
    if a < i.toNat then (a, x) :: Memory.setRow i v rows
    else if a = i.toNat then Memory.row i v rows
    else Memory.row i v ((a, x) :: rows)

end Sys2Proof.Machine
end

