-- ==== Sys2Proof/Machine/Ops.lean ====
section
/-! DEFINITION. The shared operations over the registers: the state machine's transitions
(41_decoder_fsm.md R92 to R99), the frame take and its validation (42_frame_take.md), the ILLEGAL
outcome (60_exceptions.md R170) and hardware reset (70_reset_and_hazards.md R190). -/

namespace Sys2Proof.Machine

/-- `EnterReset()` of R92: one change of the three registers. -/
def enterReset (d : Decoder) : Decoder := { d with st := .reset, bits := 0, acc := 0 }

/-- `ShiftIn(b, next)` of R97, with the overrun guard of R98. `BITS` of 33 to 63 is never held (R22); a
shift-in there resets as at 32 (DESIGN CHOICE, log entry 5). -/
def shiftIn (b : Bool) (next : Phase) (d : Decoder) : Decoder :=
  if d.bits < Config.frameBits then
    { st := next, bits := d.bits + 1, acc := (d.acc <<< 1) ||| (BitVec.ofBool b).setWidth 32 }
  else enterReset d

/-- `Feed(w)` of R99: the transition of the phase's rule, R93 to R96. Polarity is not read. -/
def feed (w : Width) (d : Decoder) : Decoder :=
  match d.st with
  | .reset => if isLeaderMark w then { d with st := .start1 } else enterReset d
  | .start1 => if isLeaderSpace w then { d with st := .start2 } else enterReset d
  | .start2 => if isBitMark w then { d with st := .pulseMarker } else enterReset d
  | .data0 => if isBitMark w then { d with st := .pulseMarker } else enterReset d
  | .data1 => if isBitMark w then { d with st := .pulseMarker } else enterReset d
  | .pulseMarker =>
    if isShortSpace w then shiftIn false .data0 d
    else if isLongSpace w then shiftIn true .data1 d
    else enterReset d

/-- The four bytes of a complete frame, the source's `DecodedFrame` (R120). Held only inside a take. -/
structure DecodedFrame where
  address : Byte
  addressComplement : Byte
  command : Byte
  commandComplement : Byte
deriving DecidableEq, Repr

/-- The frame split of R120. -/
def splitFrame (acc : BitVec 32) : DecodedFrame :=
  { address := acc.extractLsb' 24 8, addressComplement := acc.extractLsb' 16 8,
    command := acc.extractLsb' 8 8, commandComplement := acc.extractLsb' 0 8 }

/-- The validation of R123: both complement pairs. -/
def DecodedFrame.valid (f : DecodedFrame) : Bool :=
  f.address == ~~~f.addressComplement && f.command == ~~~f.commandComplement

/-- The response to a complete frame (R125): OK with the code of R124 and the mapped byte, or
IMPLAUSIBLE. -/
def frameResponse (rom : Memory) (f : DecodedFrame) : Response :=
  if f.valid then
    { Response.zero with
      kind := .ok, outValid := true, addr := f.address, cmd := f.command
      outByte := rom.read f.command }
  else { Response.zero with kind := .implausible }

/-- `Take()` of R125: the registers it leaves and its response. The tests are in R122's order, and the
frame is split before the reset (R121). -/
def takeFrame (rom : Memory) (d : Decoder) : Decoder × Response :=
  if d.bits = Config.frameBits then (enterReset d, frameResponse rom (splitFrame d.acc))
  else if d.st = .reset then (d, { Response.zero with kind := .noData })
  else (d, { Response.zero with kind := .pending })

/-- A feed operation on a width: FEED_W and, on the capture width, FEED_CAP (R100, R101). -/
def feedOp (w : Width) (s : State) : State :=
  complete s (feed w s.dec) { Response.zero with width := w }

/-- A step operation on a width: `Feed(w)`, then `Take()` on the state the feed left, as one operation
(R150, R151). -/
def stepOp (w : Width) (s : State) : State :=
  let t := takeFrame s.rom (feed w s.dec)
  complete s t.1 { t.2 with width := w }

/-- `raise Illegal(W)` (R170): no register changes, no ROM entry is read, and the response is ILLEGAL.
It is the block's only exception, and there is no return from it: the next operation runs normally. -/
def raiseIllegal (s : State) : State :=
  complete s s.dec { Response.zero with kind := .illegal }

/-- Hardware reset (R190): `EnterReset()` and a zero response. The ROM is kept (R34). -/
def hardwareReset (s : State) : State := { s with dec := enterReset s.dec, resp := .zero }

end Sys2Proof.Machine
end

