-- ==== Sys2Proof/Machine/CommandMap.lean ====
section
/-! DEFINITION. The MAP operation (43_command_map.md R142). -/

namespace Sys2Proof.Machine

/-- MAP (R142): the index and its entry on the response, no register written, `out_valid` 0. -/
def execMap (cmd : Byte) (s : State) : Host.Outcome State Fault Refusal :=
  .next (complete s s.dec { Response.zero with cmd := cmd, outByte := s.rom.read cmd })

end Sys2Proof.Machine
end

