-- ==== Sys2Proof/Machine/Feed.lean ====
section
/-! DEFINITION. The feed operations FEED_CAP and FEED_W (41_decoder_fsm.md R100, R101). -/

namespace Sys2Proof.Machine

/-- FEED_CAP (R100). The polarity has no effect (R99). -/
def execFeedCap (_pol : Polarity) (time1 time2 : Timestamp) (s : State) :
    Host.Outcome State Fault Refusal :=
  .next (feedOp (captureWidth time1 time2) s)

/-- FEED_W (R101). -/
def execFeedW (width : Width) (s : State) : Host.Outcome State Fault Refusal :=
  .next (feedOp width s)

end Sys2Proof.Machine
end

