-- ==== Sys2Proof/Machine/Sequencing.lean ====
section
/-! DEFINITION. The sequencing operations STEP_CAP, STEP_W, NOP and CLEAR (44_sequencing.md). -/

namespace Sys2Proof.Machine

/-- STEP_CAP (R150). The polarity has no effect. -/
def execStepCap (_pol : Polarity) (time1 time2 : Timestamp) (s : State) :
    Host.Outcome State Fault Refusal :=
  .next (stepOp (captureWidth time1 time2) s)

/-- STEP_W (R151). -/
def execStepW (width : Width) (s : State) : Host.Outcome State Fault Refusal :=
  .next (stepOp width s)

/-- NOP (R155): the registers stay, and the response is the default one. -/
def execNop (s : State) : Host.Outcome State Fault Refusal :=
  .next (complete s s.dec .zero)

/-- CLEAR (R156): forced reset of the registers, kind NONE. The ROM is not affected. -/
def execClear (s : State) : Host.Outcome State Fault Refusal :=
  .next (complete s (enterReset s.dec) .zero)

end Sys2Proof.Machine
end

