-- ==== Sys2Proof/Machine/Take.lean ====
section
/-! DEFINITION. The TAKE operation (42_frame_take.md R125). -/

namespace Sys2Proof.Machine

/-- TAKE (R125). -/
def execTake (s : State) : Host.Outcome State Fault Refusal :=
  let t := takeFrame s.rom s.dec
  .next (complete s t.1 t.2)

end Sys2Proof.Machine
end

