-- ==== Sys2Proof/Machine/Dispatch.lean ====
section
/-! DEFINITION. One arm per operation of 30_encoding.md R61. -/

namespace Sys2Proof.Machine

def exec (i : Instr) (s : State) : Host.Outcome State Fault Refusal :=
  match i with
  | .nop => Sys2Proof.Machine.execNop s
  | .feedCap pol time1 time2 => Sys2Proof.Machine.execFeedCap pol time1 time2 s
  | .feedW width => Sys2Proof.Machine.execFeedW width s
  | .take => Sys2Proof.Machine.execTake s
  | .stepCap pol time1 time2 => Sys2Proof.Machine.execStepCap pol time1 time2 s
  | .stepW width => Sys2Proof.Machine.execStepW width s
  | .map cmd => Sys2Proof.Machine.execMap cmd s
  | .clear => Sys2Proof.Machine.execClear s

end Sys2Proof.Machine
end

