-- ==== Sys2Proof/Machine/Port.lean ====
section
/-! DEFINITION. The transaction port and the reset line: what the block does with what the environment
presents in one step (30_encoding.md R60, R67, 60_exceptions.md R174, 70_reset_and_hazards.md R190). -/

namespace Sys2Proof.Machine

/-- Serve a transaction word: decode first, and if that raises Illegal no later step happens (R174). -/
def serveWord (w : Word) (s : State) : Host.Outcome State Fault Refusal :=
  match decode w with
  | .ok i => exec i s
  | .error _ => .next (raiseIllegal s)

/-- Serve what is presented. While `rst` is asserted the block resets and accepts no operation (R190):
a word presented beside it is not run. With nothing presented the block holds everything (R183). -/
def servePort (p : PortInput) (s : State) : Host.Outcome State Fault Refusal :=
  if p.rst then .next (hardwareReset s)
  else
    match p.word with
    | some w => serveWord w s
    | none => .next s

/-- The requester presents a word after everything it has presented so far (R47). -/
def State.present (s : State) (w : Word) : State :=
  { s with inputs := s.inputs ++ [{ rst := false, word := some w }] }

/-- The environment asserts `rst` for a step, after everything presented so far (R190). -/
def State.assertReset (s : State) : State :=
  { s with inputs := s.inputs ++ [{ rst := true, word := none }] }

end Sys2Proof.Machine
end

