-- ==== Sys2Proof/Machine/Step.lean ====
section
/-! DEFINITION. One step of the machine: the oldest thing the environment presents is served, alone and
whole (20_memory.md R47, R48). -/

namespace Sys2Proof.Machine

/-- One step. With nothing presented the block waits and holds its state (R183, R190). -/
def step (s : State) : Host.Outcome State Fault Refusal :=
  match s.inputs with
  | [] => .next s
  | p :: rest => servePort p { s with inputs := rest }

/-- `s` with the word presented to the port before anything else, `rst` not asserted beside it, so that
the very next step serves it. -/
def State.withFetchWord (s : State) (nbits w : Nat) : State :=
  { s with inputs := { rst := false, word := some (wordOfTable nbits w) } :: s.inputs }

end Sys2Proof.Machine
end

