-- ==== Sys2Proof/Machine/Assembler.lean ====
section
/-! DEFINITION. The assembler of 30_encoding.md R71 and the pseudo-instructions of R72: from a line of
text to the transaction words it stands for. It is no part of the block: it is how a requester writes
words. What R71 leaves open of the text's form (spaces, letter case) is in log entry 11. -/

namespace Sys2Proof.Machine

/-- LEADER of R72: `STEP_W 9000 ; STEP_W 4500`. -/
def leaderOps : List Instr := [.stepW 9000, .stepW 4500]

/-- BIT0 of R72: `STEP_W 560 ; STEP_W 560`. -/
def bit0Ops : List Instr := [.stepW 560, .stepW 560]

/-- BIT1 of R72: `STEP_W 560 ; STEP_W 1690`. -/
def bit1Ops : List Instr := [.stepW 560, .stepW 1690]

/-- The bits of a 32-bit value from bit `n - 1` down to bit 0: all of them, first sent first, at 32. -/
def bitsDown (v : BitVec 32) : Nat → List Bool
  | 0 => []
  | n + 1 => v.getLsbD n :: bitsDown v n

/-- FRAME of R72: LEADER, then BIT0 or BIT1 for each bit from 31 down to 0. -/
def frameOps (v : BitVec 32) : List Instr :=
  leaderOps ++ (bitsDown v 32).flatMap (fun b => if b then bit1Ops else bit0Ops)

/-- The frame word `{a, ~a, c, ~c}` of NECFRAME (R72). -/
def necWord (a c : Byte) : BitVec 32 := a ++ ~~~a ++ c ++ ~~~c

/-- The FEED_W with the width of a STEP_W; other operations as they are. -/
def withoutTake : Instr → Instr
  | .stepW width => .feedW width
  | .nop => .nop
  | .feedCap pol time1 time2 => .feedCap pol time1 time2
  | .feedW width => .feedW width
  | .take => .take
  | .stepCap pol time1 time2 => .stepCap pol time1 time2
  | .map cmd => .map cmd
  | .clear => .clear

/-- RAWFRAME of R72: FRAME with every STEP_W a FEED_W. -/
def rawFrameOps (v : BitVec 32) : List Instr := (frameOps v).map withoutTake

/-- The operations of a line whose operands are in range. -/
def AsmLine.ops : AsmLine → List Instr
  | .nop => [.nop]
  | .feedCap time1 time2 pol => [.feedCap pol (BitVec.ofNat 16 time1) (BitVec.ofNat 16 time2)]
  | .feedW width => [.feedW (BitVec.ofNat 32 width)]
  | .take => [.take]
  | .stepCap time1 time2 pol => [.stepCap pol (BitVec.ofNat 16 time1) (BitVec.ofNat 16 time2)]
  | .stepW width => [.stepW (BitVec.ofNat 32 width)]
  | .map cmd => [.map (BitVec.ofNat 8 cmd)]
  | .clear => [.clear]
  | .leader => leaderOps
  | .bit0 => bit0Ops
  | .bit1 => bit1Ops
  | .frame v => frameOps (BitVec.ofNat 32 v)
  | .necFrame a c => frameOps (necWord (BitVec.ofNat 8 a) (BitVec.ofNat 8 c))
  | .rawFrame v => rawFrameOps (BitVec.ofNat 32 v)

/-- "The assembler refuses an operand outside its range and emits no word" (R71). -/
def assemble (l : AsmLine) : Option (List Word) :=
  if l.wellFormed then some ((AsmLine.ops l).map encode) else none

/-- Why a line of text gives no word. -/
inductive AsmError where
  /-- No mnemonic of R71 or R72. -/
  | unknownMnemonic
  /-- Not the operands the mnemonic takes. -/
  | badOperands
  /-- An operand outside its range. -/
  | outOfRange
deriving DecidableEq, Repr

/-- A space in a line of text. -/
def isBlank (c : Char) : Bool := c == ' ' || c == '\t' || c == '\r'

/-- `--` starts a comment (R71). -/
def dropComment : List Char → List Char
  | [] => []
  | c :: cs => if c == '-' && cs.head? == some '-' then [] else c :: dropComment cs

/-- Without the spaces at both ends. -/
def trim (cs : List Char) : List Char :=
  ((cs.dropWhile isBlank).reverse.dropWhile isBlank).reverse

/-- The parts between commas. -/
def splitComma : List Char → List (List Char)
  | [] => [[]]
  | c :: cs =>
    if c == ',' then [] :: splitComma cs
    else
      match splitComma cs with
      | [] => [[c]]
      | p :: ps => (c :: p) :: ps

/-- The value of a decimal digit. -/
def decDigit (c : Char) : Option Nat :=
  if 48 ≤ c.toNat ∧ c.toNat ≤ 57 then some (c.toNat - 48) else none

/-- The value of a hexadecimal digit, either letter case. -/
def hexDigit (c : Char) : Option Nat :=
  if 48 ≤ c.toNat ∧ c.toNat ≤ 57 then some (c.toNat - 48)
  else if 65 ≤ c.toNat ∧ c.toNat ≤ 70 then some (c.toNat - 55)
  else if 97 ≤ c.toNat ∧ c.toNat ≤ 102 then some (c.toNat - 87)
  else none

/-- The number of a row of digits, most significant first, read on from `n`. -/
def digits (base : Nat) (digit : Char → Option Nat) : List Char → Nat → Option Nat
  | [], n => some n
  | c :: cs, n =>
    match digit c with
    | some d => digits base digit cs (n * base + d)
    | none => none

/-- An operand: decimal, or hexadecimal with a `0x` prefix (R71). -/
def number : List Char → Option Nat
  | [] => none
  | '0' :: 'x' :: c :: cs => digits 16 hexDigit (c :: cs) 0
  | c :: cs => digits 10 decDigit (c :: cs) 0

/-- The polarity operand: `R` is Rising, `F` is Falling (R71). -/
def polarityOperand : List Char → Option Polarity
  | ['R'] => some .rising
  | ['F'] => some .falling
  | _ => none

/-- The line of a mnemonic with no operand. -/
def noOperandLine (l : AsmLine) (args : List (List Char)) : Except AsmError AsmLine :=
  if args.isEmpty then .ok l else .error .badOperands

/-- The line of a mnemonic with one number. -/
def oneNumberLine (f : Nat → AsmLine) : List (List Char) → Except AsmError AsmLine
  | [a] =>
    match number a with
    | some n => .ok (f n)
    | none => .error .badOperands
  | _ => .error .badOperands

/-- The line of a mnemonic with two numbers. -/
def twoNumberLine (f : Nat → Nat → AsmLine) : List (List Char) → Except AsmError AsmLine
  | [a, b] =>
    match number a, number b with
    | some m, some n => .ok (f m n)
    | _, _ => .error .badOperands
  | _ => .error .badOperands

/-- The line of a capture mnemonic: two timestamps and a polarity, Rising where none stands (R71). -/
def captureLine (f : Nat → Nat → Polarity → AsmLine) : List (List Char) → Except AsmError AsmLine
  | [a, b] =>
    match number a, number b with
    | some m, some n => .ok (f m n .rising)
    | _, _ => .error .badOperands
  | [a, b, p] =>
    match number a, number b, polarityOperand p with
    | some m, some n, some pol => .ok (f m n pol)
    | _, _, _ => .error .badOperands
  | _ => .error .badOperands

/-- The line of a mnemonic and its operands. -/
def lineOf (mnemonic : List Char) (args : List (List Char)) : Except AsmError AsmLine :=
  if mnemonic = "NOP".toList then noOperandLine .nop args
  else if mnemonic = "FEED_CAP".toList then captureLine .feedCap args
  else if mnemonic = "FEED_W".toList then oneNumberLine .feedW args
  else if mnemonic = "TAKE".toList then noOperandLine .take args
  else if mnemonic = "STEP_CAP".toList then captureLine .stepCap args
  else if mnemonic = "STEP_W".toList then oneNumberLine .stepW args
  else if mnemonic = "MAP".toList then oneNumberLine .map args
  else if mnemonic = "CLEAR".toList then noOperandLine .clear args
  else if mnemonic = "LEADER".toList then noOperandLine .leader args
  else if mnemonic = "BIT0".toList then noOperandLine .bit0 args
  else if mnemonic = "BIT1".toList then noOperandLine .bit1 args
  else if mnemonic = "FRAME".toList then oneNumberLine .frame args
  else if mnemonic = "NECFRAME".toList then twoNumberLine .necFrame args
  else if mnemonic = "RAWFRAME".toList then oneNumberLine .rawFrame args
  else .error .unknownMnemonic

/-- The operands of a line: none where nothing stands after the mnemonic, else the trimmed parts
between commas. -/
def operandsOf (cs : List Char) : List (List Char) :=
  if (trim cs).isEmpty then [] else (splitComma (trim cs)).map trim

/-- Parse one line of text: none where nothing but space and comment stands on it. -/
def parseLine (cs : List Char) : Except AsmError (Option AsmLine) :=
  let body := trim (dropComment cs)
  if body.isEmpty then .ok none
  else
    match lineOf (body.takeWhile (fun c => !isBlank c))
        (operandsOf (body.dropWhile (fun c => !isBlank c))) with
    | .ok l => .ok (some l)
    | .error e => .error e

/-- The words of one line of text. -/
def assembleText (text : String) : Except AsmError (List Word) :=
  match parseLine text.toList with
  | .error e => .error e
  | .ok none => .ok []
  | .ok (some l) =>
    match assemble l with
    | some ws => .ok ws
    | none => .error .outOfRange

end Sys2Proof.Machine
end

