-- ==== Sys2Proof/Machine/ResponseBus.lean ====
section
/-! DEFINITION. The response record as one parallel value and as the bytes a platform carries it in
(20_memory.md R45, 10_state.md R29). The order of the bytes is R45's. The places of the fields in the
value are in log entry 7. -/

namespace Sys2Proof.Machine

/-- The record as one value, bit 0 least significant. R29 gives its fields and their widths, 101 bits in
all. DESIGN CHOICE, log entry 7: they stand in R29's order, `kind` lowest, with no gap. -/
def Response.pack (r : Response) : BitVec 101 :=
  r.accO ++ r.bitsO ++ r.stO ++ r.width ++ r.outByte ++ r.cmd ++ r.addr ++
    BitVec.ofBool r.outValid ++ r.kind.code

/-- The result of a code of 30_encoding.md R66. Codes 6 and 7 are never driven (U2). -/
def kindOfCode (c : BitVec 3) : Option ResultKind :=
  if c = 0 then some .none
  else if c = 1 then some .ok
  else if c = 2 then some .noData
  else if c = 3 then some .pending
  else if c = 4 then some .implausible
  else if c = 5 then some .illegal
  else none

/-- The record a value stands for, unless its result code is one that is never driven. -/
def Response.unpack (v : BitVec 101) : Option Response :=
  match kindOfCode (v.extractLsb' 0 3) with
  | some kind =>
    some { kind := kind, outValid := v.getLsbD 3, addr := v.extractLsb' 4 8,
           cmd := v.extractLsb' 12 8, outByte := v.extractLsb' 20 8, width := v.extractLsb' 28 32,
           stO := v.extractLsb' 60 3, bitsO := v.extractLsb' 63 6, accO := v.extractLsb' 69 32 }
  | none => none

/-- The bytes of 101 bits: the last one has 5 of them, and 0 above (log entry 7). -/
def responseByteCount : Nat := 13

/-- The record over a byte bus: byte `k` is bits `8k+7` to `8k`, and byte 0 goes first (R45). -/
def bytesOfResponse (r : Response) : List Byte := bytesLE r.pack responseByteCount

/-- What a requester reads from the bytes it gets, if they are a record's. -/
def responseOfBytes (bs : List Byte) : Option Response :=
  if bs.length = responseByteCount ∧ natOfBytes bs < 2 ^ 101 then
    Response.unpack (BitVec.ofNat 101 (natOfBytes bs))
  else none

/-- The response outputs as they stand, over a byte bus. -/
def State.responseBytes (s : State) : List Byte := bytesOfResponse s.resp

end Sys2Proof.Machine
end

