-- ==== Sys2Proof/Safety.lean ====
section
/-! DEFINITION. What counts as a safe run: the invariants of 10_state.md R28, the states a run reaches,
legal responses (U3), and the requester's disciplines (44_sequencing.md R153, 70_reset_and_hazards.md
R193). -/

namespace Sys2Proof.Machine

/-- The register invariants (a) to (e) of R28. -/
abbrev Decoder.Inv (d : Decoder) : Prop :=
  (d.st = .reset → d.bits = 0 ∧ d.acc = 0) ∧
  d.bits.toNat ≤ 32 ∧
  (d.st = .start1 ∨ d.st = .start2 → d.bits = 0 ∧ d.acc = 0) ∧
  (d.st = .data0 → 1 ≤ d.bits.toNat ∧ d.acc.getLsbD 0 = false) ∧
  (d.st = .data1 → 1 ≤ d.bits.toNat ∧ d.acc.getLsbD 0 = true) ∧
  (d.bits.toNat < 32 → d.acc.toNat < 2 ^ d.bits.toNat)

/-- The response's own invariant: the status outputs are copies of the registers (R26, R29), and
`out_valid` is 1 exactly when the kind is OK (R29). -/
abbrev Response.Inv (r : Response) (d : Decoder) : Prop :=
  r.stO = d.st.code ∧ r.bitsO = d.bits ∧ r.accO = d.acc ∧ (r.outValid = true ↔ r.kind = .ok)

/-- What every step keeps: the registers' and the response's invariants, and a ROM in its canonical
form that holds the named constraint (R7). -/
abbrev State.Inv (s : State) : Prop :=
  s.dec.Inv ∧ s.resp.Inv s.dec ∧ s.rom.wf ∧ s.rom.namedRow

/-- The reset state of a build with this ROM, to which the environment presents these inputs. -/
def State.boot (rom : Memory) (inputs : List PortInput) : State :=
  { State.reset with rom := rom, inputs := inputs }

/-- The states a run reaches from reset, with any ROM a build allows and any inputs. -/
inductive Reachable : State → Prop where
  | boot (rom : Memory) (inputs : List PortInput) (hwf : rom.wf) (hrow : rom.namedRow) :
      Reachable (State.boot rom inputs)
  | step (s t : State) (hs : Reachable s) (h : Machine.step s = .next t) : Reachable t

/-- A response that refutes no claim about a program: not ILLEGAL (U3). -/
abbrev Response.legal (r : Response) : Prop := r.kind ≠ .illegal

/-- The operations a requester issues under the orchestrator's discipline (R153). -/
def stepDiscipline : Instr → Bool
  | .stepCap _ _ _ => true
  | .stepW _ => true
  | .nop => true
  | .map _ => true
  | .clear => true
  | .feedCap _ _ _ => false
  | .feedW _ => false
  | .take => false

/-- The hazard of R193: a data space about to be fed while a complete frame waits. -/
abbrev overrun (w : Width) (d : Decoder) : Prop :=
  d.st = .pulseMarker ∧ d.bits = Config.frameBits ∧ (isShortSpace w = true ∨ isLongSpace w = true)

/-- The registers that the take of an operation sees: TAKE those it finds, a step those its own feed
leaves (R150, R151). No other operation takes. -/
def takeView : Instr → Decoder → Option Decoder
  | .take, d => some d
  | .stepCap _ time1 time2, d => some (feed (captureWidth time1 time2) d)
  | .stepW width, d => some (feed width d)
  | .nop, _ => none
  | .feedCap _ _ _, _ => none
  | .feedW _, _ => none
  | .map _, _ => none
  | .clear, _ => none

/-- Operations one after another, each on the state the one before left (20_memory.md R47), stopping at
a fault or a refusal. -/
def execAll : List Instr → State → Host.Outcome State Fault Refusal
  | [], s => .next s
  | i :: is, s =>
    match exec i s with
    | .next t => execAll is t
    | .fault r => .fault r
    | .refused r => .refused r

/-- Widths fed one after another. -/
def feedAll (ws : List Width) (d : Decoder) : Decoder := ws.foldl (fun d w => feed w d) d

/-- Data bits shifted in one after another, each into the phase of its value (R96, R97). -/
def shiftInAll (bs : List Bool) (d : Decoder) : Decoder :=
  bs.foldl (fun d b => shiftIn b (if b then .data1 else .data0) d) d

/-- The next state of an outcome, if it has one. -/
def nextState : Host.Outcome State Fault Refusal → Option State
  | .next t => some t
  | .fault _ => none
  | .refused _ => none

end Sys2Proof.Machine
end

