-- ==== Sys2Proof/Certificates/Slice0/Obligations.lean ====
section
/-! DEFINITION. The statements about the block, each from a rule of spec/ that its docstring names. -/

open Sys2Proof Sys2Proof.Machine

/-! ## Encoding (30_encoding.md, 20_memory.md R45) -/

/-- R73 (examples the spec derives from R60, R61 and R71). Every line of the table of examples assembles to its word, the word decodes to the operation
it stands for and that operation encodes to the word, and the illegal word is rejected. -/
def Obligations.ExampleWordsAssembleDecodeAndEncode : Prop :=
  (∀ e ∈ [("NOP", (0x0000000000000000 : Word), Instr.nop),
      ("FEED_CAP 65500, 100", 0x0064FFDC00000001, .feedCap .rising 65500 100),
      ("FEED_CAP 65500, 100, F", 0x0064FFDC00000009, .feedCap .falling 65500 100),
      ("FEED_W 9000", 0x0000232800000002, .feedW 9000),
      ("TAKE", 0x0000000000000003, .take),
      ("STEP_CAP 60000, 3464", 0x0D88EA6000000004, .stepCap .rising 60000 3464),
      ("STEP_W 9000", 0x0000232800000005, .stepW 9000),
      ("STEP_W 4500", 0x0000119400000005, .stepW 4500),
      ("STEP_W 560", 0x0000023000000005, .stepW 560),
      ("STEP_W 1690", 0x0000069A00000005, .stepW 1690),
      ("MAP 0xA2", 0x000000A200000006, .map 0xA2),
      ("CLEAR", 0x0000000000000007, .clear)],
    assembleText e.1 = .ok [e.2.1] ∧ decode e.2.1 = .ok e.2.2 ∧ encode e.2.2 = e.2.1) ∧
  decode 0x0000000000000013 = .error .reservedLow

/-- R60, R67, R71. Decoding the word of an operation gives the operation back, at every value of every
operand: every operation is well formed. -/
def Obligations.DecodeOfEncodeIsTheInstruction : Prop :=
  ∀ i : Instr, i.wellFormed = true ∧ decode (encode i) = .ok i

/-- R60, R67, R71. A word that decodes is the word of the operation it decodes to: no bit of it is
dropped, and no operation has two words. -/
def Obligations.EncodeOfDecodeIsTheWord : Prop :=
  ∀ (w : Word) (i : Instr), decode w = .ok i → encode i = w

/-- R68 (which the spec derives from R60 and R67). For each operation, the words that decode to it are those that agree with its match value
under its mask, and its operands are then the free fields of the row. -/
def Obligations.TableRowsDecodeToTheirOperations : Prop :=
  ∀ w : Word,
    ((w &&& 0xFFFFFFFFFFFFFFFF = 0x0000000000000000) ↔ decode w = .ok .nop) ∧
    ((w &&& 0x00000000FFFFFFF7 = 0x0000000000000001) ↔
      decode w = .ok (.feedCap (if w.getLsbD 3 then .falling else .rising)
        (BitVec.ofNat 16 (w.toNat / 2 ^ 32)) (BitVec.ofNat 16 (w.toNat / 2 ^ 48)))) ∧
    ((w &&& 0x00000000FFFFFFFF = 0x0000000000000002) ↔
      decode w = .ok (.feedW (BitVec.ofNat 32 (w.toNat / 2 ^ 32)))) ∧
    ((w &&& 0xFFFFFFFFFFFFFFFF = 0x0000000000000003) ↔ decode w = .ok .take) ∧
    ((w &&& 0x00000000FFFFFFF7 = 0x0000000000000004) ↔
      decode w = .ok (.stepCap (if w.getLsbD 3 then .falling else .rising)
        (BitVec.ofNat 16 (w.toNat / 2 ^ 32)) (BitVec.ofNat 16 (w.toNat / 2 ^ 48)))) ∧
    ((w &&& 0x00000000FFFFFFFF = 0x0000000000000005) ↔
      decode w = .ok (.stepW (BitVec.ofNat 32 (w.toNat / 2 ^ 32)))) ∧
    ((w &&& 0xFFFFFF00FFFFFFFF = 0x0000000000000006) ↔
      decode w = .ok (.map (BitVec.ofNat 8 (w.toNat / 2 ^ 32)))) ∧
    ((w &&& 0xFFFFFFFFFFFFFFFF = 0x0000000000000007) ↔ decode w = .ok .clear)

/-- R67, R69. A word is rejected exactly when a reserved bit of its operation is set; otherwise it
decodes. It decodes exactly when it matches a row of the table, and it never matches two. -/
def Obligations.ReservedBitsDecideLegality : Prop :=
  ∀ w : Word,
    ((∃ e, decode w = .error e) ↔
      w.toNat / 2 ^ 4 % 2 ^ 28 ≠ 0 ∨
      (w.toNat % 8 ≠ 1 ∧ w.toNat % 8 ≠ 4 ∧ w.getLsbD 3 = true) ∨
      ((w.toNat % 8 = 0 ∨ w.toNat % 8 = 3 ∨ w.toNat % 8 = 7) ∧ w.toNat / 2 ^ 32 ≠ 0) ∨
      (w.toNat % 8 = 6 ∧ w.toNat / 2 ^ 40 ≠ 0)) ∧
    ((∃ i, decode w = .ok i) ↔ ∃ r ∈ opcodeTable, r.matches w = true) ∧
    (∀ r ∈ opcodeTable, ∀ q ∈ opcodeTable, r.matches w = true → q.matches w = true → r = q)

/-- R45. Byte `k` of a carried word is `W[8k+7:8k]`, byte 0 first, and decoding the bytes is decoding
the word, with the rest of the stream left. -/
def Obligations.WordBytesAreLittleEndian : Prop :=
  (∀ (w : Word) (k : Nat), k < 8 →
    ((bytesOfWord w)[k]?).map BitVec.toNat = some (w.toNat / 2 ^ (8 * k) % 256)) ∧
  (∀ (w : Word) (i : Instr) (rest : List Byte), decode w = .ok i →
    decodeBytes (bytesOfWord w ++ rest) = .ok (i, rest)) ∧
  (∀ (w : Word) (e : Rejection) (rest : List Byte), decode w = .error e →
    decodeBytes (bytesOfWord w ++ rest) = .error e)

/-- R71. The assembler refuses an operand outside its range, and the word it gives for one in range is
`op | (pol << 3) | (operand << 32)`, its parts disjoint, so their sum. -/
def Obligations.AssemblerChecksRangesAndPlacesFields : Prop :=
  (∀ (t1 t2 : Nat) (pol : Polarity), t1 < 65536 → t2 < 65536 →
    assemble (.feedCap t1 t2 pol) =
      some [BitVec.ofNat 64 (1 + 8 * (if pol = .falling then 1 else 0) + (t1 + 65536 * t2) * 2 ^ 32)] ∧
    assemble (.stepCap t1 t2 pol) =
      some [BitVec.ofNat 64 (4 + 8 * (if pol = .falling then 1 else 0) + (t1 + 65536 * t2) * 2 ^ 32)]) ∧
  (∀ (t1 t2 : Nat) (pol : Polarity), 65536 ≤ t1 ∨ 65536 ≤ t2 →
    assemble (.feedCap t1 t2 pol) = none ∧ assemble (.stepCap t1 t2 pol) = none) ∧
  (∀ n : Nat, n < 4294967296 →
    assemble (.feedW n) = some [BitVec.ofNat 64 (2 + n * 2 ^ 32)] ∧
    assemble (.stepW n) = some [BitVec.ofNat 64 (5 + n * 2 ^ 32)]) ∧
  (∀ n : Nat, 4294967296 ≤ n → assemble (.feedW n) = none ∧ assemble (.stepW n) = none) ∧
  (∀ n : Nat, n < 256 → assemble (.map n) = some [BitVec.ofNat 64 (6 + n * 2 ^ 32)]) ∧
  (∀ n : Nat, 256 ≤ n → assemble (.map n) = none) ∧
  assemble .nop = some [0] ∧ assemble .take = some [3] ∧ assemble .clear = some [7]

/-! ## The step -/

/-- R60, R67, R174. When the word presented next decodes to an operation and `rst` is not asserted, the
step is that operation's effect on the state with the word taken off the port. -/
def Obligations.StepRunsTheDecodedOperation : Prop :=
  ∀ (s : State) (w : Word) (rest : List PortInput) (i : Instr),
    s.inputs = { rst := false, word := some w } :: rest → decode w = .ok i →
    step s = exec i { s with inputs := rest }

/-- R170. A word with a reserved bit set changes no register and reads no ROM entry. Its response is
ILLEGAL with every other field 0 but the status outputs, and the next word or reset is served as if it
had not come. -/
def Obligations.IllegalWordChangesNoRegister : Prop :=
  ∀ (s : State) (w : Word) (rest : List PortInput) (e : Rejection),
    s.inputs = { rst := false, word := some w } :: rest → decode w = .error e →
    ∃ t, step s = .next t ∧ t.dec = s.dec ∧ t.rom = s.rom ∧
      t.resp = { kind := .illegal, outValid := false, addr := 0, cmd := 0, outByte := 0, width := 0,
                 stO := s.dec.st.code, bitsO := s.dec.bits, accO := s.dec.acc } ∧
      (∀ rom : Memory, step { s with rom := rom } = .next { t with rom := rom }) ∧
      (∀ (p : PortInput) (more : List PortInput), rest = p :: more →
        p.rst = true ∨ p.word.isSome = true → step t = step { s with inputs := rest })

/-- R171. The block raises no exception but the ILLEGAL outcome and has no fault state: every step, from
every state and on every input, goes on. -/
def Obligations.EveryStepGoesOn : Prop := ∀ s : State, ∃ t, step s = .next t

/-- R190. A step with `rst` asserted accepts no operation, whatever word stands beside it: it leaves
`ST = Reset`, `BITS = 0`, `ACC = 0` and a response of zeros, and keeps the ROM. With nothing presented,
by an empty list or by an item without a word, the block waits: it holds its registers (R183) and its
response (R29). How inputs are held, and that the response stays, are the model's (log entries 1
and 8). -/
def Obligations.HardwareResetZeroesRegistersAndResponse : Prop :=
  (∀ (s : State) (word : Option Word) (rest : List PortInput),
    s.inputs = { rst := true, word := word } :: rest →
    ∃ t, step s = .next t ∧ t.dec = { st := .reset, bits := 0, acc := 0 } ∧
      t.resp = { kind := .none, outValid := false, addr := 0, cmd := 0, outByte := 0, width := 0,
                 stO := 0, bitsO := 0, accO := 0 } ∧
      t.rom = s.rom) ∧
  (∀ s : State, s.inputs = [] → step s = .next s) ∧
  (∀ (s : State) (rest : List PortInput), s.inputs = { rst := false, word := none } :: rest →
    step s = .next { s with inputs := rest })

/-- R34. The values after hardware reset. -/
def Obligations.ResetStateValues : Prop :=
  State.reset.dec.st = .reset ∧ State.reset.dec.st.code = 0 ∧ State.reset.dec.bits = 0 ∧
  State.reset.dec.acc = 0 ∧
  State.reset.resp = { kind := .none, outValid := false, addr := 0, cmd := 0, outByte := 0, width := 0,
                       stO := 0, bitsO := 0, accO := 0 } ∧
  (∀ s : State, (hardwareReset s).dec = State.reset.dec ∧ (hardwareReset s).resp = State.reset.resp ∧
    ∀ c : Byte, (hardwareReset s).rom.read c = s.rom.read c)

/-- R191 (which the spec derives from R190 and R156). CLEAR and hardware reset leave the same register values, and neither changes the ROM. CLEAR
returns a response of kind NONE; reset zeroes the response outputs. -/
def Obligations.ClearAndResetLeaveTheSameRegisters : Prop :=
  ∀ (s r : State) (rest more : List PortInput) (word : Option Word),
    s.inputs = { rst := false, word := some 7 } :: rest →
    r.inputs = { rst := true, word := word } :: more →
    ∃ t u, step s = .next t ∧ step r = .next u ∧ t.dec = u.dec ∧
      t.resp.kind = .none ∧ u.resp = Response.zero ∧ t.rom = s.rom ∧ u.rom = r.rom

/-! ## The pulse width (40_pulse_width.md) -/

/-- R80. The exact absolute difference, folded at the modulus strictly above half of it. -/
def Obligations.PulseWidthFoldsAboveHalf : Prop :=
  ∀ t1 t2 : Timestamp,
    let d := ((t2.toNat : Int) - (t1.toNat : Int)).natAbs
    (d > 32768 → (pulseWidth t1 t2).toNat = 65536 - d) ∧
    (d ≤ 32768 → (pulseWidth t1 t2).toNat = d) ∧
    (pulseWidth t1 t2).toNat ≤ 32768

/-- R81. The pulse width is the smaller of the difference and its complement to the modulus. -/
def Obligations.PulseWidthIsTheSmallerDifference : Prop :=
  ∀ t1 t2 : Timestamp,
    let d := ((t2.toNat : Int) - (t1.toNat : Int)).natAbs
    (pulseWidth t1 t2).toNat = min d (65536 - d) ∧
    (d ≤ 32768 → d ≤ 65536 - d) ∧ (d > 32768 → 65536 - d < d)

/-- R84. The corner cases, which the spec derives from R80. -/
def Obligations.PulseWidthCornerCases : Prop :=
  (∀ t : Timestamp, pulseWidth t t = 0) ∧
  (∀ a b : Timestamp, pulseWidth a b = pulseWidth b a) ∧
  pulseWidth 0 32768 = 32768 ∧ pulseWidth 0 32769 = 32767 ∧ pulseWidth 0 65535 = 1 ∧
  pulseWidth 65535 0 = 1 ∧ pulseWidth 65500 100 = 136

/-- R85 (which the spec derives from R80). An interval of `E` ticks is measured as `E` exactly when `E` is at most half the modulus;
a longer one aliases to a shorter width. -/
def Obligations.LongIntervalsAlias : Prop :=
  (∀ (t1 : Timestamp) (E : Nat),
    let pw := (pulseWidth t1 (BitVec.ofNat 16 ((t1.toNat + E) % 65536))).toNat
    (E % 65536 ≠ 0 → pw = min (E % 65536) (65536 - E % 65536)) ∧
    (E % 65536 = 0 → pw = 0) ∧
    (pw = E ↔ E ≤ 32768)) ∧
  (∀ t1 : Timestamp, (pulseWidth t1 (BitVec.ofNat 16 ((t1.toNat + 40000) % 65536))).toNat = 25536) ∧
  (∀ t1 : Timestamp,
    (pulseWidth t1 (BitVec.ofNat 16 ((t1.toNat + (65536 + 9000)) % 65536))).toNat = 9000)

/-! ## The state machine (41_decoder_fsm.md) -/

/-- R91. Both bounds are inside a window, and the comparison is unsigned. -/
def Obligations.WindowsIncludeBothBounds : Prop :=
  (∀ w lo hi : Width, inWin w lo hi = true ↔ lo.toNat ≤ w.toNat ∧ w.toNat ≤ hi.toNat) ∧
  inWin 349 350 750 = false ∧ inWin 350 350 750 = true ∧ inWin 750 350 750 = true ∧
  inWin 751 350 750 = false

/-- R92 to R96, R102, R103. The transition table, every phase and every width: where the phase's window
holds the width the next phase follows, and every other width resets the registers. A data space with
fewer than 32 bits held shifts its bit in, and with 32 it resets. -/
def Obligations.TransitionTableCoversEveryWidth : Prop :=
  ∀ (w : Width) (d : Decoder),
    (d.st = .reset →
      (7900 ≤ w.toNat ∧ w.toNat ≤ 10100 → feed w d = { d with st := .start1 }) ∧
      (w.toNat < 7900 ∨ 10100 < w.toNat → feed w d = { st := .reset, bits := 0, acc := 0 })) ∧
    (d.st = .start1 →
      (3400 ≤ w.toNat ∧ w.toNat ≤ 5600 → feed w d = { d with st := .start2 }) ∧
      (w.toNat < 3400 ∨ 5600 < w.toNat → feed w d = { st := .reset, bits := 0, acc := 0 })) ∧
    (d.st = .start2 ∨ d.st = .data0 ∨ d.st = .data1 →
      (350 ≤ w.toNat ∧ w.toNat ≤ 750 → feed w d = { d with st := .pulseMarker }) ∧
      (w.toNat < 350 ∨ 750 < w.toNat → feed w d = { st := .reset, bits := 0, acc := 0 })) ∧
    (d.st = .pulseMarker →
      (350 ≤ w.toNat ∧ w.toNat ≤ 750 ∧ d.bits.toNat < 32 →
        (feed w d).st = .data0 ∧ (feed w d).bits.toNat = d.bits.toNat + 1 ∧
        (feed w d).acc.toNat = 2 * d.acc.toNat % 2 ^ 32) ∧
      (1400 ≤ w.toNat ∧ w.toNat ≤ 1900 ∧ d.bits.toNat < 32 →
        (feed w d).st = .data1 ∧ (feed w d).bits.toNat = d.bits.toNat + 1 ∧
        (feed w d).acc.toNat = (2 * d.acc.toNat + 1) % 2 ^ 32) ∧
      (d.bits.toNat = 32 → feed w d = { st := .reset, bits := 0, acc := 0 }) ∧
      (w.toNat < 350 ∨ (750 < w.toNat ∧ w.toNat < 1400) ∨ 1900 < w.toNat →
        feed w d = { st := .reset, bits := 0, acc := 0 }))

/-- R97. A shift-in with fewer than 32 bits held, and what a run of them from an empty accumulator
leaves: nothing is discarded up to the 32nd bit, and the k-th bit received is then `ACC[32-k]`. -/
def Obligations.ShiftInAppendsAtBitZero : Prop :=
  (∀ (b : Bool) (next : Phase) (d : Decoder), d.bits.toNat < 32 →
    (shiftIn b next d).st = next ∧ (shiftIn b next d).bits.toNat = d.bits.toNat + 1 ∧
    (shiftIn b next d).acc.toNat = (2 * d.acc.toNat + b.toNat) % 2 ^ 32) ∧
  (∀ (bs : List Bool) (d : Decoder), bs.length ≤ 32 → d.bits = 0 → d.acc = 0 →
    (shiftInAll bs d).bits.toNat = bs.length ∧
    (shiftInAll bs d).acc.toNat = bs.foldl (fun v b => 2 * v + b.toNat) 0) ∧
  (∀ (bs : List Bool) (d : Decoder) (k : Nat), bs.length = 32 → d.bits = 0 → d.acc = 0 →
    1 ≤ k → k ≤ 32 → some ((shiftInAll bs d).acc.getLsbD (32 - k)) = bs[k - 1]?)

/-- R44 (which the spec derives from R97 and R121). Four bytes received one after another, each most significant bit first, stand in the
accumulator from its high byte down. -/
def Obligations.FirstByteReceivedIsTheHighByte : Prop :=
  ∀ (a ac c cc : Byte) (d : Decoder), d.bits = 0 → d.acc = 0 →
    (shiftInAll ([a, ac, c, cc].flatMap (fun b => List.ofFn (fun k : Fin 8 => b.getMsbD k))) d).acc =
      a ++ ac ++ c ++ cc

/-- R98. With 32 bits held a shift-in resets and shifts nothing in, and so does a data space fed in
PulseMarker with 32 bits held. Under the orchestrator's operations (those of R153) no operation leaves
32 bits held, so the next one cannot meet the case. -/
def Obligations.OverrunResets : Prop :=
  (∀ (b : Bool) (next : Phase) (d : Decoder), d.bits.toNat = 32 →
    shiftIn b next d = { st := .reset, bits := 0, acc := 0 }) ∧
  (∀ (w : Width) (d : Decoder), d.st = .pulseMarker → d.bits.toNat = 32 →
    (350 ≤ w.toNat ∧ w.toNat ≤ 750) ∨ (1400 ≤ w.toNat ∧ w.toNat ≤ 1900) →
    feed w d = { st := .reset, bits := 0, acc := 0 }) ∧
  (∀ (i : Instr) (s t : State), stepDiscipline i = true → s.dec.bits.toNat < 32 →
    exec i s = .next t → t.dec.bits.toNat < 32)

/-- R104 (which the spec derives from R93 to R97 and R122). From Reset, any leader mark, leader space and 32 pairs of bit mark and data space in their
windows complete a frame on the 66th feed and not before. After each of the feeds 1 to 65 a TAKE gives
PENDING; after the 66th the accumulator holds the 32 data bits, the first received highest. -/
def Obligations.SixtySixFeedsCompleteAFrame : Prop :=
  ∀ (mark space : Width) (cells : List (Width × Width)),
    7900 ≤ mark.toNat → mark.toNat ≤ 10100 → 3400 ≤ space.toNat → space.toNat ≤ 5600 →
    cells.length = 32 →
    (∀ c ∈ cells, 350 ≤ c.1.toNat ∧ c.1.toNat ≤ 750 ∧
      ((350 ≤ c.2.toNat ∧ c.2.toNat ≤ 750) ∨ (1400 ≤ c.2.toNat ∧ c.2.toNat ≤ 1900))) →
    let feeds := mark :: space :: cells.flatMap (fun c => [c.1, c.2])
    feeds.length = 66 ∧
    (∀ n : Nat, 1 ≤ n → n ≤ 65 →
      (feedAll (feeds.take n) Decoder.zero).st ≠ .reset ∧
      (feedAll (feeds.take n) Decoder.zero).bits.toNat < 32 ∧
      ∀ s : State, s.dec = feedAll (feeds.take n) Decoder.zero →
        ∃ t, exec .take s = .next t ∧ t.resp.kind = .pending) ∧
    (feedAll feeds Decoder.zero).bits.toNat = 32 ∧
    ((feedAll feeds Decoder.zero).st = .data0 ∨ (feedAll feeds Decoder.zero).st = .data1) ∧
    (feedAll feeds Decoder.zero).acc.toNat =
      cells.foldl (fun v c => 2 * v + (if 1400 ≤ c.2.toNat then 1 else 0)) 0

/-- R105 (which the spec derives from R102). Outside Reset a feed makes the frame's next transition or resets, and from Reset only a
leader mark starts a frame. A leader mark in the middle of a frame is consumed by the reset, and the
rest of its own frame, leader space and bit cells, is lost: the block is then in its reset state. -/
def Obligations.NewLeaderInsideAFrameIsLost : Prop :=
  (∀ (w : Width) (d : Decoder), d.st ≠ .reset →
    feed w d = Decoder.zero ∨
    (d.st = .start1 ∧ (feed w d).st = .start2) ∨
    ((d.st = .start2 ∨ d.st = .data0 ∨ d.st = .data1) ∧ (feed w d).st = .pulseMarker) ∨
    (d.st = .pulseMarker ∧ ((feed w d).st = .data0 ∨ (feed w d).st = .data1))) ∧
  (∀ (w : Width) (d : Decoder), d.st = .reset →
    ((feed w d).st ≠ .reset ↔ 7900 ≤ w.toNat ∧ w.toNat ≤ 10100)) ∧
  (∀ (mark space : Width) (cells : List Width) (d : Decoder), d.st ≠ .reset →
    7900 ≤ mark.toNat → mark.toNat ≤ 10100 → 3400 ≤ space.toNat → space.toNat ≤ 5600 →
    (∀ w ∈ cells, w.toNat ≤ 1900) →
    feedAll (mark :: space :: cells) d = Decoder.zero)

/-- R193 (which the spec derives from R96 and R98). A bit mark fed after a complete frame keeps the frame: a TAKE then answers as it would have
before. The next width fed before the TAKE, a data space or any other, loses it. -/
def Obligations.BitMarkKeepsAWaitingFrame : Prop :=
  ∀ (mark space : Width) (s : State), s.dec.bits.toNat = 32 →
    s.dec.st = .data0 ∨ s.dec.st = .data1 →
    350 ≤ mark.toNat → mark.toNat ≤ 750 →
    ∃ t u v, exec (.feedW mark) s = .next t ∧ t.dec = { s.dec with st := .pulseMarker } ∧
      exec .take t = .next u ∧ exec .take s = .next u ∧
      exec (.feedW space) t = .next v ∧ v.dec = Decoder.zero

/-! ## The operations -/

/-- R155. NOP completes in every state, leaves everything but the response as it was, and returns the
default response. A step with nothing presented, by an empty list or by an item without a word, leaves
the same registers. How inputs are held is the model's (log entry 1). -/
def Obligations.NopKeepsTheRegisters : Prop :=
  (∀ s : State, exec .nop s = .next
    { s with
      resp := { kind := .none, outValid := false, addr := 0, cmd := 0, outByte := 0, width := 0,
                stO := s.dec.st.code, bitsO := s.dec.bits, accO := s.dec.acc } }) ∧
  (∀ s t : State, s.inputs = [] ∨ (∃ rest, s.inputs = { rst := false, word := none } :: rest) →
    exec .nop s = .next t → ∃ u, step s = .next u ∧ u.dec = t.dec)

/-- R101. FEED_W completes in every state and on every width: the registers make the width's transition,
the response has kind NONE and the width, and nothing else changes. -/
def Obligations.FeedWFeedsItsWidth : Prop :=
  ∀ (w : Width) (s : State), exec (.feedW w) s = .next
    { s with
      dec := feed w s.dec
      resp := { kind := .none, outValid := false, addr := 0, cmd := 0, outByte := 0, width := w,
                stO := (feed w s.dec).st.code, bitsO := (feed w s.dec).bits,
                accO := (feed w s.dec).acc } }

/-- R82, R99, R100. FEED_CAP completes in every state, on every pair of timestamps and either polarity,
and does exactly what FEED_W does on the pulse width of the two timestamps. -/
def Obligations.FeedCapFeedsThePulseWidth : Prop :=
  ∀ (pol : Polarity) (t1 t2 : Timestamp) (w : Width) (s : State),
    w.toNat = min ((t2.toNat : Int) - (t1.toNat : Int)).natAbs
      (65536 - ((t2.toNat : Int) - (t1.toNat : Int)).natAbs) →
    exec (.feedCap pol t1 t2) s = exec (.feedW w) s ∧
    ∃ t, exec (.feedCap pol t1 t2) s = .next t ∧ t.dec = feed w s.dec ∧ t.resp.width = w

/-- R121, R123, R124. TAKE with 32 bits held completes: the registers are reset, whether or not the
frame validates. The response is OK with address, command and mapped byte when both complement pairs
hold (each pair adds up to 255), else IMPLAUSIBLE. -/
def Obligations.TakeConsumesACompleteFrame : Prop :=
  ∀ s : State, s.dec.bits.toNat = 32 →
    let a := s.dec.acc.toNat / 2 ^ 24
    let ac := s.dec.acc.toNat / 2 ^ 16 % 256
    let c := s.dec.acc.toNat / 2 ^ 8 % 256
    let cc := s.dec.acc.toNat % 256
    ∃ t, exec .take s = .next t ∧ t.dec = { st := .reset, bits := 0, acc := 0 } ∧
      t.rom = s.rom ∧ t.inputs = s.inputs ∧
      (a + ac = 255 ∧ c + cc = 255 →
        t.resp = { kind := .ok, outValid := true, addr := BitVec.ofNat 8 a, cmd := BitVec.ofNat 8 c,
                   outByte := s.rom.read (BitVec.ofNat 8 c), width := 0,
                   stO := 0, bitsO := 0, accO := 0 }) ∧
      (¬(a + ac = 255 ∧ c + cc = 255) →
        t.resp = { kind := .implausible, outValid := false, addr := 0, cmd := 0, outByte := 0,
                   width := 0, stO := 0, bitsO := 0, accO := 0 })

/-- R122. TAKE with no complete frame completes, changes no register, and answers NODATA in Reset and
PENDING in every other phase. The check for 32 bits comes first: with them held the answer is neither,
whatever the phase. -/
def Obligations.TakeWithoutAFrameChangesNothing : Prop :=
  (∀ s : State, s.dec.bits.toNat ≠ 32 →
    exec .take s = .next
      { s with
        resp := { kind := if s.dec.st = .reset then .noData else .pending
                  outValid := false, addr := 0, cmd := 0, outByte := 0, width := 0
                  stO := s.dec.st.code, bitsO := s.dec.bits, accO := s.dec.acc } }) ∧
  (∀ s : State, s.dec.bits.toNat = 32 →
    ∃ t, exec .take s = .next t ∧ t.resp.kind ≠ .noData ∧ t.resp.kind ≠ .pending)

/-- R126, the checksum law, which the spec derives from R123: every pair of address and command validates, every single-bit flip of such
a frame is implausible, and exactly 2^16 accumulator values validate. -/
def Obligations.ChecksumLaw : Prop :=
  (∀ (a c : Byte) (s : State), s.dec.bits.toNat = 32 → s.dec.acc = a ++ ~~~a ++ c ++ ~~~c →
    ∃ t, exec .take s = .next t ∧ t.resp.kind = .ok ∧ t.resp.addr = a ∧ t.resp.cmd = c) ∧
  (∀ (a c : Byte) (n : Nat) (s : State), n < 32 → s.dec.bits.toNat = 32 →
    s.dec.acc = (a ++ ~~~a ++ c ++ ~~~c) ^^^ BitVec.twoPow 32 n →
    ∃ t, exec .take s = .next t ∧ t.resp.kind = .implausible) ∧
  Nat.card { v : BitVec 32 //
    ∀ (rom : Memory) (st : Phase), (takeFrame rom { st := st, bits := 32, acc := v }).2.kind = .ok } = 2 ^ 16

/-- R127 (which the spec derives from R121 and R122). After a take that consumed a frame the registers are those of reset, so every operation
behaves as on a freshly reset block with the same ROM. A take that found no frame changes nothing, and
repeating it gives the same result. -/
def Obligations.TakeIsIdempotentReset : Prop :=
  (∀ s t : State, exec .take s = .next t → t.resp.kind = .ok ∨ t.resp.kind = .implausible →
    t.dec = State.reset.dec ∧ ∀ i : Instr, exec i t = exec i (hardwareReset s)) ∧
  (∀ s t : State, exec .take s = .next t → t.resp.kind = .noData ∨ t.resp.kind = .pending →
    t.dec = s.dec ∧ exec .take t = .next t)

/-- R151. STEP_W completes in every state and on every width. It is FEED_W and then TAKE on the state
the feed left, with the width on the response. -/
def Obligations.StepWIsFeedThenTake : Prop :=
  ∀ (w : Width) (s : State), ∃ u v, exec (.feedW w) s = .next u ∧ exec .take u = .next v ∧
    exec (.stepW w) s = .next { v with resp := { v.resp with width := w } }

/-- R150. STEP_CAP completes in every state, on every pair of timestamps and either polarity. It is
FEED_CAP and then TAKE on the state the feed left, with the pulse width on the response. -/
def Obligations.StepCapIsFeedThenTake : Prop :=
  ∀ (pol : Polarity) (t1 t2 : Timestamp) (s : State), ∃ u v,
    exec (.feedCap pol t1 t2) s = .next u ∧ exec .take u = .next v ∧
    exec (.stepCap pol t1 t2) s =
      .next { v with resp := { v.resp with
        width := BitVec.ofNat 32 (min ((t2.toNat : Int) - (t1.toNat : Int)).natAbs
          (65536 - ((t2.toNat : Int) - (t1.toNat : Int)).natAbs)) } }

/-- R142. MAP completes in every state and for every command: the response has the index and its ROM
entry, with kind NONE and `out_valid` 0, and nothing else changes. -/
def Obligations.MapReadsTheRom : Prop :=
  ∀ (c : Byte) (s : State), exec (.map c) s = .next
    { s with
      resp := { kind := .none, outValid := false, addr := 0, cmd := c, outByte := s.rom.read c,
                width := 0, stO := s.dec.st.code, bitsO := s.dec.bits, accO := s.dec.acc } }

/-- R156. CLEAR completes in every state: the registers are reset and the response is NONE with every
field 0. Nothing else changes, and a frame that waited is not validated. -/
def Obligations.ClearForcesReset : Prop :=
  ∀ s : State, exec .clear s = .next
    { s with
      dec := { st := .reset, bits := 0, acc := 0 }
      resp := { kind := .none, outValid := false, addr := 0, cmd := 0, outByte := 0, width := 0,
                stO := 0, bitsO := 0, accO := 0 } }

/-- R152 (which the spec derives from R102, R121 and R122), for both step operations, with a premise of
the model's that its reason needs: fewer than 32 bits were held before the step (log entry 9). The
result depends on the state after the feed, and 32 bits are held then only if this feed completed the
frame. -/
def Obligations.StepResultFollowsItsFeed : Prop :=
  ∀ (i : Instr) (w : Width) (s : State),
    i = .stepW w ∨ (∃ pol t1 t2, i = .stepCap pol t1 t2 ∧ w = captureWidth t1 t2) →
    s.dec.bits.toNat < 32 → ∃ t, exec i s = .next t ∧
    ((feed w s.dec).bits.toNat = 32 ↔
      s.dec.st = .pulseMarker ∧ s.dec.bits.toNat = 31 ∧
      ((350 ≤ w.toNat ∧ w.toNat ≤ 750) ∨ (1400 ≤ w.toNat ∧ w.toNat ≤ 1900))) ∧
    ((feed w s.dec).bits.toNat = 32 → t.resp.kind = .ok ∨ t.resp.kind = .implausible) ∧
    ((feed w s.dec).bits.toNat ≠ 32 → (feed w s.dec).st = .reset → t.resp.kind = .noData) ∧
    ((feed w s.dec).bits.toNat ≠ 32 → (feed w s.dec).st ≠ .reset → t.resp.kind = .pending)

/-- R153 (which the spec derives from R150, R151 and R121). A requester that issues only STEP_CAP, STEP_W, NOP, MAP and CLEAR never leaves more than 31
bits held, and its steps reset the registers when they complete a frame. A requester that leaves a
complete frame untaken loses it to the next data space. -/
def Obligations.StepDisciplineNeverOverruns : Prop :=
  (∀ (ops : List Instr) (s : State), (∀ i ∈ ops, stepDiscipline i = true) → s.dec.bits.toNat ≤ 31 →
    ∃ t, execAll ops s = .next t ∧ t.dec.bits.toNat ≤ 31 ∧ ∀ w : Width, ¬ overrun w t.dec) ∧
  (∀ (w : Width) (s t : State), (feed w s.dec).bits.toNat = 32 → exec (.stepW w) s = .next t →
    t.dec = { st := .reset, bits := 0, acc := 0 }) ∧
  (∀ (pol : Polarity) (t1 t2 : Timestamp) (s t : State),
    (feed (captureWidth t1 t2) s.dec).bits.toNat = 32 → exec (.stepCap pol t1 t2) s = .next t →
    t.dec = { st := .reset, bits := 0, acc := 0 }) ∧
  (∀ (w : Width) (s : State), s.dec.bits.toNat = 32 → s.dec.st = .pulseMarker →
    (350 ≤ w.toNat ∧ w.toNat ≤ 750) ∨ (1400 ≤ w.toNat ∧ w.toNat ≤ 1900) →
    ∃ t, exec (.feedW w) s = .next t ∧ t.dec = { st := .reset, bits := 0, acc := 0 })

/-- R72, and the source's round trip and checksum laws (V-S4, V-S5, V-S8). The end-to-end law: from the reset registers, the 66 steps of FRAME v answer
PENDING 65 times and then OK or IMPLAUSIBLE, as the frame word says. For NECFRAME a, c, whose word is
`{a, ~a, c, ~c}`, the last answer is OK with address, command and the mapped byte. -/
def Obligations.FrameStepsDecodeTheFrame : Prop :=
  (∀ (v : BitVec 32) (s : State), s.dec = Decoder.zero →
    (frameOps v).length = 66 ∧
    (∀ n : Nat, 1 ≤ n → n ≤ 65 → ∃ t, execAll ((frameOps v).take n) s = .next t ∧
      t.resp.kind = .pending ∧ t.resp.outValid = false) ∧
    ∃ t, execAll (frameOps v) s = .next t ∧ t.dec = Decoder.zero ∧ t.rom = s.rom ∧
      t.inputs = s.inputs ∧
      t.resp.kind = if (splitFrame v).valid then .ok else .implausible) ∧
  (∀ (a c : Byte) (s : State), s.dec = Decoder.zero →
    ∃ t, execAll (frameOps (necWord a c)) s = .next t ∧ t.resp.kind = .ok ∧ t.resp.outValid = true ∧
      t.resp.addr = a ∧ t.resp.cmd = c ∧ t.resp.outByte = s.rom.read c)

/-! ## The whole machine -/

/-- R172 (a table the spec derives from the operations' rules). The outcome of every word presented without reset, by the operation and the registers its take
sees. -/
def Obligations.OutcomeCodesByOperation : Prop :=
  ∀ (s : State) (w : Word) (rest : List PortInput),
    s.inputs = { rst := false, word := some w } :: rest →
    ∃ t, step s = .next t ∧
      (∀ e, decode w = .error e → t.resp.kind = .illegal) ∧
      (∀ i, decode w = .ok i → takeView i s.dec = none → t.resp.kind = .none) ∧
      (∀ i d, decode w = .ok i → takeView i s.dec = some d →
        (d.bits.toNat = 32 → (splitFrame d.acc).valid = true → t.resp.kind = .ok) ∧
        (d.bits.toNat = 32 → (splitFrame d.acc).valid = false → t.resp.kind = .implausible) ∧
        (d.bits.toNat ≠ 32 → d.st = .reset → t.resp.kind = .noData) ∧
        (d.bits.toNat ≠ 32 → d.st ≠ .reset → t.resp.kind = .pending))

/-- R144, and R143, which the spec derives from R125 and R140. On every response but an OK, `out_valid`
is 0 and `out_byte` is 0, but that MAP sets `out_byte`. An OK has `out_valid` 1, and comes only from
TAKE, STEP_CAP or STEP_W. -/
def Obligations.OnlyAValidFrameGivesAByte : Prop :=
  ∀ (s t : State) (w : Word) (rest : List PortInput),
    s.inputs = { rst := false, word := some w } :: rest → step s = .next t →
    (t.resp.outValid = true ↔ t.resp.kind = .ok) ∧
    (t.resp.kind ≠ .ok → t.resp.outByte = 0 ∨ ∃ c, decode w = .ok (.map c)) ∧
    (t.resp.kind = .ok → ∃ i, decode w = .ok i ∧ (i.op = .take ∨ i.op = .stepCap ∨ i.op = .stepW))

/-- R10, R33, R42. The frame of the operations: none changes a ROM entry or what is presented next. NOP
and MAP change no register, and TAKE changes none while no complete frame is held. -/
def Obligations.OperationsKeepTheirFrame : Prop :=
  ∀ (i : Instr) (s t : State), exec i s = .next t →
    t.inputs = s.inputs ∧ (∀ c : Byte, t.rom.read c = s.rom.read c) ∧
    (i.op = .nop ∨ i.op = .map ∨ (i.op = .take ∧ s.dec.bits.toNat ≠ 32) →
      t.dec.st = s.dec.st ∧ t.dec.bits = s.dec.bits ∧ t.dec.acc = s.dec.acc)

/-- R7, R34, R42. No step, reset and illegal words included, changes the ROM. That each takes exactly
one presented item off the port is the model's choice of how inputs are held (log entries 1 and 2). -/
def Obligations.StepKeepsTheRomAndServesOneInput : Prop :=
  ∀ s t : State, step s = .next t →
    t.rom = s.rom ∧ (∀ c : Byte, t.rom.read c = s.rom.read c) ∧ t.inputs = s.inputs.tail

/-- R29, R182. No operation reads the response outputs. -/
def Obligations.ResponseIsNeverRead : Prop :=
  ∀ (i : Instr) (s : State) (r : Response), exec i { s with resp := r } = exec i s

/-- R41, R140. The ROM's contents reach nothing but `out_byte`: on two builds the registers and every
other response field come out the same, and `out_byte` differs at most by the entry of the command on
the response. -/
def Obligations.RomReachesOnlyOutByte : Prop :=
  ∀ (i : Instr) (s : State) (rom : Memory), ∃ t u, exec i s = .next t ∧
    exec i { s with rom := rom } = .next u ∧ u.dec = t.dec ∧
    { u.resp with outByte := t.resp.outByte } = t.resp ∧
    ((t.resp.outByte = s.rom.read t.resp.cmd ∧ u.resp.outByte = rom.read t.resp.cmd) ∨
      (t.resp.outByte = 0 ∧ u.resp.outByte = 0))

/-- R141. This hardware's ROM maps 0xA2 to 0x70 and every other command to 0x78. Every ROM that holds
the constraint `CMD_ROM[0xA2] = 0x70` is a ROM of the model, in its canonical form. -/
def Obligations.RomContentsAndParameter : Prop :=
  State.reset.rom.read 0xA2 = 0x70 ∧
  (∀ c : Byte, c ≠ 0xA2 → State.reset.rom.read c = 0x78) ∧
  (∀ rom : Byte → Byte, rom 0xA2 = 0x70 →
    ∃ m : Memory, m.wf ∧ m.namedRow ∧ ∀ c : Byte, m.read c = rom c)

/-- R7, R28 (which the spec derives) and R29. The invariant every step keeps, from every state that has it: the register invariants
(a) to (e), the status outputs equal to the registers, `out_valid` exactly on OK, and a ROM in canonical
form that holds its named constraint. -/
def Obligations.StepKeepsTheInvariant : Prop :=
  ∀ s t : State, s.Inv → step s = .next t → t.Inv

/-- R7, R34. The reset state has the invariant, whatever ROM the build has and whatever is presented. -/
def Obligations.ResetHasTheInvariant : Prop :=
  ∀ (rom : Memory) (inputs : List PortInput), rom.wf → rom.namedRow → (State.boot rom inputs).Inv

/-- R28 (which the spec derives from R92 to R98 and R121). Every reachable state satisfies the
invariants (a) to (f): (f) says that 32 bits are held
exactly when a TAKE would find a complete frame. -/
def Obligations.ReachableStatesSatisfyTheInvariants : Prop :=
  ∀ s : State, Reachable s →
    (s.dec.st = .reset → s.dec.bits = 0 ∧ s.dec.acc = 0) ∧
    s.dec.bits.toNat ≤ 32 ∧
    (s.dec.st = .start1 ∨ s.dec.st = .start2 → s.dec.bits = 0 ∧ s.dec.acc = 0) ∧
    (s.dec.st = .data0 → 1 ≤ s.dec.bits.toNat ∧ s.dec.acc.getLsbD 0 = false) ∧
    (s.dec.st = .data1 → 1 ≤ s.dec.bits.toNat ∧ s.dec.acc.getLsbD 0 = true) ∧
    (s.dec.bits.toNat < 32 → s.dec.acc.toNat < 2 ^ s.dec.bits.toNat) ∧
    (s.dec.bits.toNat = 32 ↔
      ∃ t, exec .take s = .next t ∧ (t.resp.kind = .ok ∨ t.resp.kind = .implausible))

/-! ## The codes and the response record as bytes -/

/-- R21, R66, R69, whose code numbers are the spec's own choice. The codes of the six phases and of the
six results, and that codes 6 and 7 are no phase's and no result's. -/
def Obligations.PhaseAndResultCodes : Prop :=
  (Phase.reset.code = 0 ∧ Phase.start1.code = 1 ∧ Phase.start2.code = 2 ∧ Phase.pulseMarker.code = 3 ∧
    Phase.data0.code = 4 ∧ Phase.data1.code = 5) ∧
  (ResultKind.none.code = 0 ∧ ResultKind.ok.code = 1 ∧ ResultKind.noData.code = 2 ∧
    ResultKind.pending.code = 3 ∧ ResultKind.implausible.code = 4 ∧ ResultKind.illegal.code = 5) ∧
  (∀ p : Phase, p.code ≠ 6 ∧ p.code ≠ 7) ∧ (∀ k : ResultKind, k.code ≠ 6 ∧ k.code ≠ 7)

/-- R29, R45. The response record over a byte bus, little-endian, byte 0 first. That its fields stand in
R29's order from bit 0 up, with no gap, is the model's choice (log entry 7). The bytes read back to the
record, no other bytes do, and a result code that is never driven reads as no record. -/
def Obligations.ResponseBytesAreLittleEndian : Prop :=
  (∀ r : Response, (bytesOfResponse r).length = 13 ∧
    (∀ k : Nat, k < 13 →
      ((bytesOfResponse r)[k]?).map BitVec.toNat = some (r.pack.toNat / 2 ^ (8 * k) % 256)) ∧
    r.pack.toNat = r.kind.code.toNat + 2 ^ 3 * r.outValid.toNat + 2 ^ 4 * r.addr.toNat +
      2 ^ 12 * r.cmd.toNat + 2 ^ 20 * r.outByte.toNat + 2 ^ 28 * r.width.toNat +
      2 ^ 60 * r.stO.toNat + 2 ^ 63 * r.bitsO.toNat + 2 ^ 69 * r.accO.toNat ∧
    responseOfBytes (bytesOfResponse r) = some r) ∧
  (∀ (bs : List Byte) (r : Response), responseOfBytes bs = some r → bytesOfResponse r = bs) ∧
  (∀ (b : Byte) (bs : List Byte), 6 ≤ b.toNat % 8 → responseOfBytes (b :: bs) = none)
end

