-- ==== Sys2Proof/Laws/Encoding.lean ====
section
/-! SUPPORT. The word of an operation as a number, its fields, and the inversion of the decoder. -/

namespace Sys2Proof

/-- The three parts of an encoded word do not overlap, so their union is their sum. -/
theorem encode_toNat (i : Instr) :
    (encode i).toNat = i.op.code.toNat + 8 * i.polBit.toNat + i.operand.toNat * 2 ^ 32 := by
  have hop := i.op.code.isLt
  have hpol := i.polBit.isLt
  have hx := i.operand.isLt
  simp only [encode, BitVec.toNat_or, BitVec.toNat_shiftLeft, BitVec.toNat_setWidth, Nat.shiftLeft_eq]
  rw [Nat.mod_eq_of_lt (a := i.op.code.toNat) (by omega),
    Nat.mod_eq_of_lt (a := i.polBit.toNat) (by omega),
    Nat.mod_eq_of_lt (a := i.operand.toNat) (by omega),
    Nat.mod_eq_of_lt (a := i.polBit.toNat * 2 ^ 3) (by omega),
    Nat.mod_eq_of_lt (a := i.operand.toNat * 2 ^ 32) (by omega)]
  have low : i.op.code.toNat ||| i.polBit.toNat * 2 ^ 3 =
      2 ^ 3 * i.polBit.toNat + i.op.code.toNat := by
    rw [Nat.or_comm, Nat.mul_comm, Nat.two_pow_add_eq_or_of_lt hop]
  rw [low, Nat.or_comm, Nat.mul_comm i.operand.toNat,
    ← Nat.two_pow_add_eq_or_of_lt (i := 32) (by omega)]
  omega

theorem opField_toNat (w : Word) : (opField w).toNat = w.toNat % 8 := by
  simp [opField]

theorem polField_toNat (w : Word) : (polField w).toNat = w.toNat / 2 ^ 3 % 2 := by
  simp [polField, Nat.shiftRight_eq_div_pow]

theorem rsvField_toNat (w : Word) : (rsvField w).toNat = w.toNat / 2 ^ 4 % 2 ^ 28 := by
  simp [rsvField, Nat.shiftRight_eq_div_pow]

theorem time1Field_toNat (w : Word) : (time1Field w).toNat = w.toNat / 2 ^ 32 % 2 ^ 16 := by
  simp [time1Field, Nat.shiftRight_eq_div_pow]

theorem time2Field_toNat (w : Word) : (time2Field w).toNat = w.toNat / 2 ^ 48 := by
  simp [time2Field, Nat.shiftRight_eq_div_pow]
  omega

theorem widthField_toNat (w : Word) : (widthField w).toNat = w.toNat / 2 ^ 32 := by
  simp [widthField, Nat.shiftRight_eq_div_pow]
  omega

theorem cmdField_toNat (w : Word) : (cmdField w).toNat = w.toNat / 2 ^ 32 % 2 ^ 8 := by
  simp [cmdField, Nat.shiftRight_eq_div_pow]

theorem rsvHiField_toNat (w : Word) : (rsvHiField w).toNat = w.toNat / 2 ^ 40 := by
  simp [rsvHiField, Nat.shiftRight_eq_div_pow]
  omega

@[simp] theorem opOfCode_code (op : Op) : opOfCode op.code = op := by cases op <;> decide

@[simp] theorem code_opOfCode (c : BitVec 3) : (opOfCode c).code = c := by decide +revert

@[simp] theorem polarityOfBit_bitOfPolarity (p : Polarity) : polarityOfBit (bitOfPolarity p) = p := by
  cases p <;> decide

@[simp] theorem bitOfPolarity_polarityOfBit (b : BitVec 1) : bitOfPolarity (polarityOfBit b) = b := by
  decide +revert

/-- The instruction made of a word's fields is the operation they were read for. -/
@[simp] theorem instrOfFields_op (op : Op) (w : Word) : (instrOfFields op w).op = op := by
  cases op <;> rfl

/-- What a word that decodes is made of: no reserved field of its operation set, and the instruction of
its fields. -/
theorem decode_ok_cases (w : Word) (i : Instr) (h : decode w = .ok i) :
    i = instrOfFields (opOfCode (opField w)) w ∧ rsvField w = 0 ∧
    ((opOfCode (opField w)).usesPolarity = false → polField w = 0) ∧
    ((opOfCode (opField w)).noOperand = true → widthField w = 0) ∧
    (opOfCode (opField w) = .map → rsvHiField w = 0) := by
  unfold decode at h
  simp only at h
  split at h
  · cases h
  · rename_i h1
    split at h
    · cases h
    · rename_i h2
      split at h
      · cases h
      · rename_i h3
        split at h
        · cases h
        · rename_i h4
          injection h with h
          exact ⟨h.symm, not_not.1 h1, fun e => not_not.1 fun n => h2 ⟨e, n⟩,
            fun e => not_not.1 fun n => h3 ⟨e, n⟩, fun e => not_not.1 fun n => h4 ⟨e, n⟩⟩

/-- A word with no reserved field of its operation set decodes to the instruction of its fields. -/
theorem decode_of_fields (w : Word) (h1 : rsvField w = 0)
    (h2 : (opOfCode (opField w)).usesPolarity = false → polField w = 0)
    (h3 : (opOfCode (opField w)).noOperand = true → widthField w = 0)
    (h4 : opOfCode (opField w) = .map → rsvHiField w = 0) :
    decode w = .ok (instrOfFields (opOfCode (opField w)) w) := by
  unfold decode
  simp only
  rw [if_neg (fun n => n h1), if_neg (fun n => n.2 (h2 n.1)), if_neg (fun n => n.2 (h3 n.1)),
    if_neg (fun n => n.2 (h4 n.1))]

end Sys2Proof
end

