-- ==== Sys2Proof/Laws/Memory.lean ====
section
/-! SUPPORT. The laws of the ROM's rows: a built row reads back, leaves the other indexes alone, and
keeps the canonical form. -/

namespace Sys2Proof.Machine

@[simp] theorem read_nil (i : Byte) : Memory.read [] i = romDefault i := rfl

theorem read_cons (a : Nat) (v i : Byte) (rows : Memory) :
    Memory.read ((a, v) :: rows) i = if a = i.toNat then v else Memory.read rows i := rfl

/-- An index below every row reads as the default contents. -/
theorem read_of_below (rows : Memory) (i : Byte) (h : ∀ c ∈ rows, i.toNat < c.1) :
    Memory.read rows i = romDefault i := by
  induction rows with
  | nil => rfl
  | cons c rows ih =>
    have hc := h c (by simp)
    rw [show c = (c.1, c.2) from rfl, read_cons, if_neg (by omega)]
    exact ih fun d hd => h d (by simp [hd])

theorem wf_nil : Memory.wf [] := by decide

/-- The reset state's ROM is in canonical form and holds the named constraint. -/
theorem reset_rom_wf : State.reset.rom.wf ∧ State.reset.rom.namedRow := by decide

/-- The canonical form of a longer list: the first row is below the others, in range and not default. -/
theorem wf_cons (a : Nat) (v : Byte) (rows : Memory) :
    Memory.wf ((a, v) :: rows) ↔
      (∀ c ∈ rows, a < c.1) ∧ (a < 256 ∧ v ≠ romDefault (BitVec.ofNat 8 a)) ∧ Memory.wf rows := by
  simp only [Memory.wf, List.pairwise_cons, List.forall_mem_cons]
  tauto

/-- A row placed before rows above it keeps the canonical form. -/
theorem wf_row (i v : Byte) (rows : Memory) (hwf : rows.wf) (h : ∀ c ∈ rows, i.toNat < c.1) :
    (Memory.row i v rows).wf := by
  unfold Memory.row
  split
  · exact hwf
  · rename_i hv
    exact (wf_cons _ _ _).2 ⟨h, ⟨i.isLt, by simpa using hv⟩, hwf⟩

theorem mem_row (i v : Byte) (rows : Memory) (c : Host.Cell) (h : c ∈ Memory.row i v rows) :
    c.1 = i.toNat ∨ c ∈ rows := by
  unfold Memory.row at h
  split at h
  · exact .inr h
  · exact (List.mem_cons.1 h).imp (fun e => by rw [e]) id

theorem mem_setRow (i v : Byte) (rows : Memory) (c : Host.Cell) (h : c ∈ rows.setRow i v) :
    c.1 = i.toNat ∨ c ∈ rows := by
  induction rows with
  | nil => exact mem_row i v [] c h
  | cons d rows ih =>
    simp only [Memory.setRow] at h
    split at h
    · rcases List.mem_cons.1 h with h | h
      · exact .inr (by simp [h])
      · exact (ih h).imp id (by simp +contextual)
    · split at h
      · exact (mem_row i v rows c h).imp id (by simp +contextual)
      · exact mem_row i v _ c h

/-- Building a row keeps the canonical form. -/
theorem setRow_keeps_wf (i v : Byte) (rows : Memory) (hwf : rows.wf) : (rows.setRow i v).wf := by
  induction rows with
  | nil => exact wf_row i v [] hwf (by simp)
  | cons d rows ih =>
    obtain ⟨hlo, hd, hrows⟩ := (wf_cons d.1 d.2 rows).1 hwf
    simp only [Memory.setRow]
    split
    · rename_i hlt
      refine (wf_cons _ _ _).2 ⟨fun c hc => ?_, hd, ih hrows⟩
      rcases mem_setRow i v rows c hc with h | h
      · omega
      · exact hlo c h
    · split
      · rename_i heq
        exact wf_row i v rows hrows (heq ▸ hlo)
      · refine wf_row i v _ hwf fun c hc => ?_
        rcases List.mem_cons.1 hc with h | h
        · rw [h]; simp only; omega
        · have := hlo c h; omega

/-- A row placed before rows above it reads back as its entry. -/
theorem read_row_same (i v : Byte) (rows : Memory) (h : ∀ c ∈ rows, i.toNat < c.1) :
    (Memory.row i v rows).read i = v := by
  unfold Memory.row
  split
  · rename_i hv
    rw [hv, read_of_below rows i h]
  · simp [read_cons]

theorem read_row_other (i j v : Byte) (rows : Memory) (h : j ≠ i) :
    (Memory.row i v rows).read j = rows.read j := by
  unfold Memory.row
  split
  · rfl
  · rw [read_cons, if_neg]
    exact fun e => h (BitVec.eq_of_toNat_eq e.symm)

/-- A built row reads back as its entry. -/
theorem read_setRow_same (i v : Byte) (rows : Memory) (hwf : rows.wf) :
    (rows.setRow i v).read i = v := by
  induction rows with
  | nil => exact read_row_same i v [] (by simp)
  | cons d rows ih =>
    obtain ⟨hlo, -, hrows⟩ := (wf_cons d.1 d.2 rows).1 hwf
    simp only [Memory.setRow]
    split
    · rw [read_cons, if_neg (by omega), ih hrows]
    · split
      · rename_i heq
        exact read_row_same i v rows (heq ▸ hlo)
      · refine read_row_same i v _ fun c hc => ?_
        rcases List.mem_cons.1 hc with h | h
        · rw [h]; simp only; omega
        · have := hlo c h; omega

/-- Building a row leaves every other index alone. -/
theorem read_setRow_other (i j v : Byte) (rows : Memory) (h : j ≠ i) :
    (rows.setRow i v).read j = rows.read j := by
  induction rows with
  | nil => exact read_row_other i j v [] h
  | cons d rows ih =>
    have hne : i.toNat ≠ j.toNat := fun e => h (BitVec.eq_of_toNat_eq e.symm)
    simp only [Memory.setRow]
    split
    · rw [read_cons, ih, ← read_cons]
    · split
      · rename_i heq
        rw [read_row_other i j v rows h, show d = (d.1, d.2) from rfl, read_cons, if_neg (by omega)]
      · exact read_row_other i j v _ h

end Sys2Proof.Machine
end

