-- ==== Sys2Proof/Laws/Operands.lean ====
section
/-! SUPPORT. The pulse width and the windows as statements about numbers. -/

namespace Sys2Proof.Machine

theorem modulus_eq : Config.modulus = 65536 := rfl
theorem half_eq : Config.half = 32768 := rfl

/-- The pulse width of two timestamps as a number, with no truncation left in it. -/
theorem pulseWidth_toNat (t1 t2 : Timestamp) :
    (pulseWidth t1 t2).toNat =
      if absDiff t2.toNat t1.toNat > 32768 then 65536 - absDiff t2.toNat t1.toNat
      else absDiff t2.toNat t1.toNat := by
  have h1 := t1.isLt
  have h2 := t2.isLt
  simp only [pulseWidth, absDiff, half_eq, modulus_eq, BitVec.toNat_ofNat]
  split <;> split <;> omega

/-- The absolute difference of two numbers as that of integers. -/
theorem absDiff_eq_natAbs (a b : Nat) : absDiff b a = ((b : Int) - (a : Int)).natAbs := by
  unfold absDiff
  split <;> omega

/-- Widening the pulse width keeps its value. -/
theorem captureWidth_toNat (t1 t2 : Timestamp) :
    (captureWidth t1 t2).toNat = (pulseWidth t1 t2).toNat := by
  have h := (pulseWidth t1 t2).isLt
  simp only [captureWidth, BitVec.toNat_setWidth]
  omega

/-- A window test with its bounds as numbers. -/
theorem inWin_iff_toNat (w lo hi : Width) :
    inWin w lo hi = (decide (lo.toNat ≤ w.toNat) && decide (w.toNat ≤ hi.toNat)) := rfl

theorem isLeaderMark_iff (w : Width) : isLeaderMark w = true ↔ 7900 ≤ w.toNat ∧ w.toNat ≤ 10100 := by
  simp [isLeaderMark, inWin_iff_toNat, Config.lmLo, Config.lmHi]

theorem isLeaderSpace_iff (w : Width) : isLeaderSpace w = true ↔ 3400 ≤ w.toNat ∧ w.toNat ≤ 5600 := by
  simp [isLeaderSpace, inWin_iff_toNat, Config.lsLo, Config.lsHi]

theorem isBitMark_iff (w : Width) : isBitMark w = true ↔ 350 ≤ w.toNat ∧ w.toNat ≤ 750 := by
  simp [isBitMark, inWin_iff_toNat, Config.bmLo, Config.bmHi]

theorem isShortSpace_iff (w : Width) : isShortSpace w = true ↔ 350 ≤ w.toNat ∧ w.toNat ≤ 750 := by
  simp [isShortSpace, inWin_iff_toNat, Config.s0Lo, Config.s0Hi]

theorem isLongSpace_iff (w : Width) : isLongSpace w = true ↔ 1400 ≤ w.toNat ∧ w.toNat ≤ 1900 := by
  simp [isLongSpace, inWin_iff_toNat, Config.s1Lo, Config.s1Hi]

end Sys2Proof.Machine
end

