-- ==== Sys2Proof/Laws/State.lean ====
section
/-! SUPPORT. One lemma per field per update of the state and its parts. -/

namespace Sys2Proof.Machine

@[simp] theorem enterReset_eq (d : Decoder) : enterReset d = Decoder.zero := rfl

@[simp] theorem Decoder.zero_st : Decoder.zero.st = .reset := rfl
@[simp] theorem Decoder.zero_bits : Decoder.zero.bits = 0 := rfl
@[simp] theorem Decoder.zero_acc : Decoder.zero.acc = 0 := rfl

@[simp] theorem withStatus_kind (r : Response) (d : Decoder) : (r.withStatus d).kind = r.kind := rfl
@[simp] theorem withStatus_outValid (r : Response) (d : Decoder) :
    (r.withStatus d).outValid = r.outValid := rfl
@[simp] theorem withStatus_addr (r : Response) (d : Decoder) : (r.withStatus d).addr = r.addr := rfl
@[simp] theorem withStatus_cmd (r : Response) (d : Decoder) : (r.withStatus d).cmd = r.cmd := rfl
@[simp] theorem withStatus_outByte (r : Response) (d : Decoder) :
    (r.withStatus d).outByte = r.outByte := rfl
@[simp] theorem withStatus_width (r : Response) (d : Decoder) : (r.withStatus d).width = r.width := rfl
@[simp] theorem withStatus_stO (r : Response) (d : Decoder) : (r.withStatus d).stO = d.st.code := rfl
@[simp] theorem withStatus_bitsO (r : Response) (d : Decoder) : (r.withStatus d).bitsO = d.bits := rfl
@[simp] theorem withStatus_accO (r : Response) (d : Decoder) : (r.withStatus d).accO = d.acc := rfl

@[simp] theorem complete_dec (s : State) (d : Decoder) (r : Response) : (complete s d r).dec = d := rfl
@[simp] theorem complete_resp (s : State) (d : Decoder) (r : Response) :
    (complete s d r).resp = r.withStatus d := rfl
@[simp] theorem complete_rom (s : State) (d : Decoder) (r : Response) :
    (complete s d r).rom = s.rom := rfl
@[simp] theorem complete_inputs (s : State) (d : Decoder) (r : Response) :
    (complete s d r).inputs = s.inputs := rfl

@[simp] theorem hardwareReset_dec (s : State) : (hardwareReset s).dec = Decoder.zero := rfl
@[simp] theorem hardwareReset_resp (s : State) : (hardwareReset s).resp = Response.zero := rfl
@[simp] theorem hardwareReset_rom (s : State) : (hardwareReset s).rom = s.rom := rfl
@[simp] theorem hardwareReset_inputs (s : State) : (hardwareReset s).inputs = s.inputs := rfl

@[simp] theorem raiseIllegal_dec (s : State) : (raiseIllegal s).dec = s.dec := rfl
@[simp] theorem raiseIllegal_rom (s : State) : (raiseIllegal s).rom = s.rom := rfl
@[simp] theorem raiseIllegal_inputs (s : State) : (raiseIllegal s).inputs = s.inputs := rfl

@[simp] theorem feedOp_dec (w : Width) (s : State) : (feedOp w s).dec = feed w s.dec := rfl
@[simp] theorem feedOp_rom (w : Width) (s : State) : (feedOp w s).rom = s.rom := rfl
@[simp] theorem feedOp_inputs (w : Width) (s : State) : (feedOp w s).inputs = s.inputs := rfl

@[simp] theorem stepOp_dec (w : Width) (s : State) :
    (stepOp w s).dec = (takeFrame s.rom (feed w s.dec)).1 := rfl
@[simp] theorem stepOp_rom (w : Width) (s : State) : (stepOp w s).rom = s.rom := rfl
@[simp] theorem stepOp_inputs (w : Width) (s : State) : (stepOp w s).inputs = s.inputs := rfl

@[simp] theorem present_dec (s : State) (w : Word) : (s.present w).dec = s.dec := rfl
@[simp] theorem present_resp (s : State) (w : Word) : (s.present w).resp = s.resp := rfl
@[simp] theorem present_rom (s : State) (w : Word) : (s.present w).rom = s.rom := rfl

@[simp] theorem assertReset_dec (s : State) : s.assertReset.dec = s.dec := rfl
@[simp] theorem assertReset_resp (s : State) : s.assertReset.resp = s.resp := rfl
@[simp] theorem assertReset_rom (s : State) : s.assertReset.rom = s.rom := rfl

@[simp] theorem withFetchWord_dec (s : State) (n w : Nat) : (s.withFetchWord n w).dec = s.dec := rfl
@[simp] theorem withFetchWord_resp (s : State) (n w : Nat) : (s.withFetchWord n w).resp = s.resp := rfl
@[simp] theorem withFetchWord_rom (s : State) (n w : Nat) : (s.withFetchWord n w).rom = s.rom := rfl

@[simp] theorem boot_dec (rom : Memory) (ins : List PortInput) :
    (State.boot rom ins).dec = Decoder.zero := rfl
@[simp] theorem boot_resp (rom : Memory) (ins : List PortInput) :
    (State.boot rom ins).resp = Response.zero := rfl
@[simp] theorem boot_rom (rom : Memory) (ins : List PortInput) : (State.boot rom ins).rom = rom := rfl

end Sys2Proof.Machine
end

