-- ==== Sys2Proof/Laws/Ops.lean ====
section
/-! SUPPORT. Everything a shared operation can do, said once. -/

namespace Sys2Proof.Machine

theorem frameBits_toNat : Config.frameBits.toNat = 32 := rfl

/-- The comparison of `BITS` with the frame length, as numbers. -/
theorem bits_lt_frame_iff (b : BitVec 6) : b < Config.frameBits ↔ b.toNat < 32 := Iff.rfl

theorem bits_eq_frame_iff (b : BitVec 6) : b = Config.frameBits ↔ b.toNat = 32 := by
  rw [← BitVec.toNat_inj, frameBits_toNat]

/-- A shift-in appends a bit or resets. -/
theorem shiftIn_cases (b : Bool) (next : Phase) (d : Decoder) :
    (d.bits.toNat < 32 ∧ (shiftIn b next d).st = next ∧
      (shiftIn b next d).bits.toNat = d.bits.toNat + 1 ∧
      (shiftIn b next d).acc.toNat = (2 * d.acc.toNat + b.toNat) % 2 ^ 32 ∧
      (shiftIn b next d).acc.getLsbD 0 = b) ∨
    (32 ≤ d.bits.toNat ∧ shiftIn b next d = Decoder.zero) := by
  unfold shiftIn
  split
  · rename_i h
    rw [bits_lt_frame_iff] at h
    left
    have hacc : ((d.acc <<< 1) ||| (BitVec.ofBool b).setWidth 32).toNat =
        (2 * d.acc.toNat + b.toNat) % 2 ^ 32 := by
      have hx := d.acc.isLt
      cases b
      · have e : (d.acc <<< 1) ||| (BitVec.ofBool false).setWidth 32 = d.acc <<< 1 := by simp
        rw [e]
        simp [Nat.shiftLeft_eq]
        omega
      · have e : (d.acc <<< 1) ||| (BitVec.ofBool true).setWidth 32 = (d.acc <<< 1) + 1 := by
          rw [BitVec.add_eq_or_of_and_eq_zero]
          · simp
          · apply BitVec.eq_of_getLsbD_eq
            intro j hj
            rcases j with _ | j <;> simp
        rw [e]
        simp [Nat.shiftLeft_eq]
        omega
    refine ⟨h, rfl, ?_, hacc, ?_⟩
    · simp only [BitVec.toNat_add]
      simp
      omega
    · cases b <;> simp
  · rename_i h
    rw [bits_lt_frame_iff] at h
    exact .inr ⟨by omega, rfl⟩

/-- Everything a feed can do: reset, move to the next phase of the frame with the registers kept, or
shift a bit in. -/
theorem feed_cases (w : Width) (d : Decoder) :
    feed w d = Decoder.zero ∨
    (d.st = .reset ∧ isLeaderMark w = true ∧ feed w d = { d with st := .start1 }) ∨
    (d.st = .start1 ∧ isLeaderSpace w = true ∧ feed w d = { d with st := .start2 }) ∨
    ((d.st = .start2 ∨ d.st = .data0 ∨ d.st = .data1) ∧ isBitMark w = true ∧
      feed w d = { d with st := .pulseMarker }) ∨
    (d.st = .pulseMarker ∧ isShortSpace w = true ∧ d.bits.toNat < 32 ∧
      feed w d = shiftIn false .data0 d) ∨
    (d.st = .pulseMarker ∧ isLongSpace w = true ∧ d.bits.toNat < 32 ∧
      feed w d = shiftIn true .data1 d) := by
  rcases d with ⟨st, bits, acc⟩
  cases st with
  | pulseMarker =>
    simp only [feed]
    split
    · rename_i hs
      rcases shiftIn_cases false .data0 ⟨.pulseMarker, bits, acc⟩ with h | h
      · exact .inr (.inr (.inr (.inr (.inl ⟨trivial, hs, h.1, rfl⟩))))
      · exact .inl h.2
    · split
      · rename_i hl
        rcases shiftIn_cases true .data1 ⟨.pulseMarker, bits, acc⟩ with h | h
        · exact .inr (.inr (.inr (.inr (.inr ⟨trivial, hl, h.1, rfl⟩))))
        · exact .inl h.2
      · exact .inl rfl
  | reset | start1 | start2 | data0 | data1 =>
    simp only [feed]
    split <;> simp_all

/-- Everything a take can do: consume a complete frame, or report its absence and change nothing. -/
theorem takeFrame_cases (rom : Memory) (d : Decoder) :
    (d.bits.toNat = 32 ∧ takeFrame rom d = (Decoder.zero, frameResponse rom (splitFrame d.acc))) ∨
    (d.bits.toNat ≠ 32 ∧ d.st = .reset ∧
      takeFrame rom d = (d, { Response.zero with kind := .noData })) ∨
    (d.bits.toNat ≠ 32 ∧ d.st ≠ .reset ∧
      takeFrame rom d = (d, { Response.zero with kind := .pending })) := by
  unfold takeFrame
  simp only [bits_eq_frame_iff]
  split
  · exact .inl ⟨‹_›, rfl⟩
  · split
    · exact .inr (.inl ⟨‹_›, ‹_›, rfl⟩)
    · exact .inr (.inr ⟨‹_›, ‹_›, rfl⟩)

/-- The response to a complete frame: OK with the bytes, or IMPLAUSIBLE with none. -/
theorem frameResponse_cases (rom : Memory) (f : DecodedFrame) :
    (f.valid = true ∧ frameResponse rom f =
      { Response.zero with
        kind := .ok, outValid := true, addr := f.address, cmd := f.command
        outByte := rom.read f.command }) ∨
    (f.valid = false ∧ frameResponse rom f = { Response.zero with kind := .implausible }) := by
  unfold frameResponse
  cases f.valid
  · exact .inr ⟨rfl, rfl⟩
  · exact .inl ⟨rfl, rfl⟩

end Sys2Proof.Machine
end

