-- ==== Sys2Proof/Laws/PerInstr.lean ====
section
/-! SUPPORT. Statements made for every operation as syntax, one lemma per constructor. -/

/-! ## RowMatch: the word of an operation matches the row of its opcode (30_encoding.md R61, R68). -/

namespace Sys2Proof.Laws.RowMatch

/-- Some row of the opcode table is the operation's own and its word matches that row. -/
def Statement (i : Instr) : Prop := ∃ r ∈ opcodeTable, r.op = i.op ∧ r.matches (encode i) = true

/-- An operand above bit 31 does not meet a mask that is 0 there. -/
theorem and_low_mask (x : BitVec 32) (m : Word) (h : m.toNat < 2 ^ 32) :
    (x.setWidth 64 <<< 32) &&& m = 0 := by
  apply BitVec.eq_of_getLsbD_eq
  intro k hk
  rcases Nat.lt_or_ge k 32 with h32 | h32
  · simp [h32]
  · have hm : m.getLsbD k = false :=
      Nat.testBit_lt_two_pow (Nat.lt_of_lt_of_le h (Nat.pow_le_pow_right (by decide) h32))
    simp [hm]

/-- Under a mask of the low 32 bits, a word is its operation code and polarity bit. -/
theorem encode_and_low_mask (i : Instr) (m : Word) (h : m.toNat < 2 ^ 32) :
    encode i &&& m = (i.op.code.setWidth 64 ||| (i.polBit.setWidth 64 <<< 3)) &&& m := by
  rw [encode, BitVec.and_or_distrib_right, and_low_mask _ _ h]
  exact BitVec.or_zero

theorem nop : Statement .nop := ⟨⟨.nop, 0, 0xFFFFFFFFFFFFFFFF⟩, by decide, rfl, by decide⟩

theorem feedCap (pol : Polarity) (time1 time2 : Timestamp) : Statement (.feedCap pol time1 time2) := by
  refine ⟨⟨.feedCap, 1, 0x00000000FFFFFFF7⟩, by decide, rfl, ?_⟩
  rw [TableRow.matches, encode_and_low_mask _ _ (by decide)]
  simp only [Instr.op, Instr.polBit]
  cases pol <;> decide

theorem feedW (width : Width) : Statement (.feedW width) := by
  refine ⟨⟨.feedW, 2, 0x00000000FFFFFFFF⟩, by decide, rfl, ?_⟩
  rw [TableRow.matches, encode_and_low_mask _ _ (by decide)]
  simp only [Instr.op, Instr.polBit]
  decide

theorem take : Statement .take := ⟨⟨.take, 3, 0xFFFFFFFFFFFFFFFF⟩, by decide, rfl, by decide⟩

theorem stepCap (pol : Polarity) (time1 time2 : Timestamp) : Statement (.stepCap pol time1 time2) := by
  refine ⟨⟨.stepCap, 4, 0x00000000FFFFFFF7⟩, by decide, rfl, ?_⟩
  rw [TableRow.matches, encode_and_low_mask _ _ (by decide)]
  simp only [Instr.op, Instr.polBit]
  cases pol <;> decide

theorem stepW (width : Width) : Statement (.stepW width) := by
  refine ⟨⟨.stepW, 5, 0x00000000FFFFFFFF⟩, by decide, rfl, ?_⟩
  rw [TableRow.matches, encode_and_low_mask _ _ (by decide)]
  simp only [Instr.op, Instr.polBit]
  decide

theorem map (cmd : Byte) : Statement (.map cmd) :=
  ⟨⟨.map, 6, 0xFFFFFF00FFFFFFFF⟩, by decide, rfl, by decide +revert⟩

theorem clear : Statement .clear := ⟨⟨.clear, 7, 0xFFFFFFFFFFFFFFFF⟩, by decide, rfl, by decide⟩

end Sys2Proof.Laws.RowMatch
end

