-- ==== Sys2Proof/Laws/ResponseBus.lean ====
section
/-! SUPPORT. Values as bytes and back, and the response record as a number. -/

namespace Sys2Proof

@[simp] theorem bytesLE_length {m : Nat} (v : BitVec m) (n : Nat) : (bytesLE v n).length = n := by
  simp [bytesLE]

/-- Byte `k` as a number. -/
theorem bytesLE_getElem {m : Nat} (v : BitVec m) (n k : Nat) (h : k < n) :
    ((bytesLE v n)[k]?).map BitVec.toNat = some (v.toNat / 2 ^ (8 * k) % 256) := by
  simp [bytesLE, h, Nat.shiftRight_eq_div_pow]

/-- The bytes from the second on are those of the value shifted right by eight. -/
theorem bytesLE_succ {m : Nat} (v : BitVec m) (n : Nat) :
    bytesLE v (n + 1) = v.extractLsb' 0 8 :: bytesLE (v >>> 8) n := by
  simp only [bytesLE, List.range_succ_eq_map, List.map_cons, List.map_map, List.cons.injEq,
    List.map_inj_left, Function.comp]
  refine ⟨trivial, fun k _ => ?_⟩
  apply BitVec.eq_of_getLsbD_eq
  intro i hi
  have : 8 * (k + 1) + i = 8 + (8 * k + i) := by omega
  simp [hi, this]

/-- Reading the first `n` bytes back gives the value's low `8n` bits. -/
theorem natOfBytes_bytesLE {m : Nat} (n : Nat) :
    ∀ v : BitVec m, natOfBytes (bytesLE v n) = v.toNat % 2 ^ (8 * n) := by
  induction n with
  | zero => intro v; simp [bytesLE, natOfBytes, Nat.mod_one]
  | succ n ih =>
    intro v
    have split : 2 ^ (8 * (n + 1)) = 256 * 2 ^ (8 * n) := by rw [Nat.mul_add, Nat.pow_add]; omega
    rw [bytesLE_succ, natOfBytes, ih, split, Nat.mod_mul]
    simp [Nat.shiftRight_eq_div_pow]

/-- `n` bytes make a number below `2 ^ (8n)`. -/
theorem natOfBytes_lt (bs : List Byte) : natOfBytes bs < 2 ^ (8 * bs.length) := by
  induction bs with
  | nil => simp [natOfBytes]
  | cons b bs ih =>
    have hb := b.isLt
    have split : 2 ^ (8 * (bs.length + 1)) = 256 * 2 ^ (8 * bs.length) := by
      rw [Nat.mul_add, Nat.pow_add]; omega
    simp only [natOfBytes, List.length_cons, split]
    omega

/-- Different bytes make different numbers. -/
theorem natOfBytes_inj (bs : List Byte) :
    ∀ cs : List Byte, bs.length = cs.length → natOfBytes bs = natOfBytes cs → bs = cs := by
  induction bs with
  | nil => intro cs hl _; exact (List.length_eq_zero_iff.mp hl.symm).symm
  | cons b bs ih =>
    intro cs hl hn
    match cs, hl with
    | c :: cs, hl =>
      have hb := b.isLt
      have hc := c.isLt
      simp only [natOfBytes] at hn
      rw [BitVec.eq_of_toNat_eq (x := b) (y := c) (by omega),
        ih cs (by simpa using hl) (by omega)]

end Sys2Proof

namespace Sys2Proof.Machine

@[simp] theorem kindOfCode_code (k : ResultKind) : kindOfCode k.code = some k := by cases k <;> rfl

/-- The only value with a code is the one whose code it is, and 6 and 7 have none. -/
theorem kindOfCode_eq_some (c : BitVec 3) (k : ResultKind) : kindOfCode c = some k → k.code = c := by
  cases k <;> (revert c; decide)

/-- The fields do not overlap, so the packed record is their sum. -/
theorem pack_toNat (r : Response) :
    r.pack.toNat = r.kind.code.toNat + 2 ^ 3 * r.outValid.toNat + 2 ^ 4 * r.addr.toNat +
      2 ^ 12 * r.cmd.toNat + 2 ^ 20 * r.outByte.toNat + 2 ^ 28 * r.width.toNat +
      2 ^ 60 * r.stO.toNat + 2 ^ 63 * r.bitsO.toNat + 2 ^ 69 * r.accO.toNat := by
  have h1 := r.kind.code.isLt
  have h2 := (BitVec.ofBool r.outValid).isLt
  have h3 := r.addr.isLt
  have h4 := r.cmd.isLt
  have h5 := r.outByte.isLt
  have h6 := r.width.isLt
  have h7 := r.stO.isLt
  have h8 := r.bitsO.isLt
  simp only [Response.pack, BitVec.toNat_append, Nat.shiftLeft_eq]
  rw [Nat.mul_comm _ (2 ^ 3), ← Nat.two_pow_add_eq_or_of_lt h1,
    Nat.mul_comm _ (2 ^ 1), ← Nat.two_pow_add_eq_or_of_lt h2,
    Nat.mul_comm _ (2 ^ 8), ← Nat.two_pow_add_eq_or_of_lt h3,
    Nat.mul_comm _ (2 ^ 8), ← Nat.two_pow_add_eq_or_of_lt h4,
    Nat.mul_comm _ (2 ^ 8), ← Nat.two_pow_add_eq_or_of_lt h5,
    Nat.mul_comm _ (2 ^ 32), ← Nat.two_pow_add_eq_or_of_lt h6,
    Nat.mul_comm _ (2 ^ 3), ← Nat.two_pow_add_eq_or_of_lt h7,
    Nat.mul_comm _ (2 ^ 6), ← Nat.two_pow_add_eq_or_of_lt h8]
  simp only [BitVec.toNat_ofBool]
  omega

end Sys2Proof.Machine
end

