-- ==== Sys2Proof/Laws/Step.lean ====
section
/-! SUPPORT. Everything a step can do, said once, and the inversion of the dispatch. -/

namespace Sys2Proof.Machine

/-- Every operation ends by completing some registers and some response on the state it started from. -/
theorem exec_cases (i : Instr) (s t : State) (h : exec i s = .next t) :
    (i = .nop ∧ t = complete s s.dec .zero) ∨
    (∃ pol t1 t2, i = .feedCap pol t1 t2 ∧ t = feedOp (captureWidth t1 t2) s) ∨
    (∃ w, i = .feedW w ∧ t = feedOp w s) ∨
    (i = .take ∧ t = complete s (takeFrame s.rom s.dec).1 (takeFrame s.rom s.dec).2) ∨
    (∃ pol t1 t2, i = .stepCap pol t1 t2 ∧ t = stepOp (captureWidth t1 t2) s) ∨
    (∃ w, i = .stepW w ∧ t = stepOp w s) ∨
    (∃ c, i = .map c ∧
      t = complete s s.dec { Response.zero with cmd := c, outByte := s.rom.read c }) ∨
    (i = .clear ∧ t = complete s Decoder.zero .zero) := by
  cases i <;> (injection h with h; subst h)
  case nop => exact .inl ⟨rfl, rfl⟩
  case feedCap pol t1 t2 => exact .inr (.inl ⟨pol, t1, t2, rfl, rfl⟩)
  case feedW w => exact .inr (.inr (.inl ⟨w, rfl, rfl⟩))
  case take => exact .inr (.inr (.inr (.inl ⟨rfl, rfl⟩)))
  case stepCap pol t1 t2 => exact .inr (.inr (.inr (.inr (.inl ⟨pol, t1, t2, rfl, rfl⟩))))
  case stepW w => exact .inr (.inr (.inr (.inr (.inr (.inl ⟨w, rfl, rfl⟩)))))
  case map c => exact .inr (.inr (.inr (.inr (.inr (.inr (.inl ⟨c, rfl, rfl⟩))))))
  case clear => exact .inr (.inr (.inr (.inr (.inr (.inr (.inr ⟨rfl, rfl⟩))))))

/-- A step holds the state, resets, runs the decoded operation, or takes the ILLEGAL outcome. -/
theorem step_cases (s t : State) (h : step s = .next t) :
    (s.inputs = [] ∧ t = s) ∨
    ∃ p rest, s.inputs = p :: rest ∧
      ((p.rst = true ∧ t = hardwareReset { s with inputs := rest }) ∨
       (p.rst = false ∧ p.word = none ∧ t = { s with inputs := rest }) ∨
       (∃ w i, p.rst = false ∧ p.word = some w ∧ decode w = .ok i ∧
         exec i { s with inputs := rest } = .next t) ∨
       (∃ w e, p.rst = false ∧ p.word = some w ∧ decode w = .error e ∧
         t = raiseIllegal { s with inputs := rest })) := by
  unfold step at h
  split at h
  · rename_i hin
    injection h with h
    exact .inl ⟨hin, h.symm⟩
  · rename_i p rest hin
    refine .inr ⟨p, rest, hin, ?_⟩
    unfold servePort at h
    split at h
    · rename_i hr
      injection h with h
      exact .inl ⟨hr, h.symm⟩
    · rename_i hr
      have hr : p.rst = false := by simpa using hr
      split at h
      · rename_i w hw
        unfold serveWord at h
        split at h
        · rename_i i hd
          exact .inr (.inr (.inl ⟨w, i, hr, hw, hd, h⟩))
        · rename_i e hd
          injection h with h
          exact .inr (.inr (.inr ⟨w, e, hr, hw, hd, h.symm⟩))
      · rename_i hw
        injection h with h
        exact .inr (.inl ⟨hr, hw, h.symm⟩)

/-- A word presented by `withFetchWord` is the one the very next step serves. -/
theorem step_withFetchWord (s : State) (n w : Nat) :
    step (s.withFetchWord n w) = serveWord (wordOfTable n w) s := rfl

end Sys2Proof.Machine
end

