-- ==== Sys2Proof/Tests/Slice0.lean ====
section
/-! SUPPORT. Tests. Expected results are the words of 30_encoding.md R73 and the vectors of
95_test_vectors.md, each named where it is used, and the ranges of R71. After them, for every statement
with hypotheses, a witness that meets them. -/

namespace Sys2Proof.Tests

open Sys2Proof.Machine

/-- A state with these registers, as the vectors write it. -/
def regs (st : Phase) (bits : BitVec 6) (acc : BitVec 32) : State :=
  { State.reset with dec := { st := st, bits := bits, acc := acc } }

/-- The state after the word is presented and served. -/
def after (s : State) (w : Nat) : Option State := nextState (step (s.withFetchWord 64 w))

/-- The registers of a next state. -/
def regsOf (s : Option State) : Option (Phase × BitVec 6 × BitVec 32) :=
  s.map fun t => (t.dec.st, t.dec.bits, t.dec.acc)

/-- Kind, address, command, output byte and width of a next state's response. -/
def answer (s : Option State) : Option (ResultKind × Byte × Byte × Byte × Width) :=
  s.map fun t => (t.resp.kind, t.resp.addr, t.resp.cmd, t.resp.outByte, t.resp.width)

/-! ## WellFormed: one ill-formed line for each check -/

theorem smoke_feedCap_time1 : (AsmLine.feedCap 65536 0 .rising).wellFormed = false := by decide
theorem smoke_feedCap_time2 : (AsmLine.feedCap 0 65536 .rising).wellFormed = false := by decide
theorem smoke_feedW_width : (AsmLine.feedW 4294967296).wellFormed = false := by decide
theorem smoke_stepCap_time1 : (AsmLine.stepCap 65536 0 .falling).wellFormed = false := by decide
theorem smoke_stepCap_time2 : (AsmLine.stepCap 0 65536 .falling).wellFormed = false := by decide
theorem smoke_stepW_width : (AsmLine.stepW 4294967296).wellFormed = false := by decide
theorem smoke_map_cmd : (AsmLine.map 256).wellFormed = false := by decide
theorem smoke_frame : (AsmLine.frame 4294967296).wellFormed = false := by decide
theorem smoke_necFrame_address : (AsmLine.necFrame 256 0).wellFormed = false := by decide
theorem smoke_necFrame_command : (AsmLine.necFrame 0 256).wellFormed = false := by decide
theorem smoke_rawFrame : (AsmLine.rawFrame 4294967296).wellFormed = false := by decide

/-! ## Decode: the words of R73 and V-F23, V-Q6, and the illegal words of section 2.6 -/

theorem test_decode_nop : decodeTableWord 64 0x0000000000000000 = some .nop := by decide
theorem test_decode_feedCap :
    decodeTableWord 64 0x0064FFDC00000009 = some (.feedCap .falling 65500 100) := by decide
theorem test_decode_feedW : decodeTableWord 64 0x0000232800000002 = some (.feedW 9000) := by decide
theorem test_decode_take : decodeTableWord 64 0x0000000000000003 = some .take := by decide
theorem test_decode_stepCap :
    decodeTableWord 64 0x0D88EA6000000004 = some (.stepCap .rising 60000 3464) := by decide
theorem test_decode_stepCap_falling :
    decodeTableWord 64 0x000000000000000C = some (.stepCap .falling 0 0) := by decide
theorem test_decode_stepW : decodeTableWord 64 0x0000069A00000005 = some (.stepW 1690) := by decide
theorem test_decode_map : decodeTableWord 64 0x000000A200000006 = some (.map 0xA2) := by decide
theorem test_decode_clear : decodeTableWord 64 0x0000000000000007 = some .clear := by decide

/-- V-E1 to V-E9. -/
theorem test_decode_illegal :
    ([0x13, 0x8, 0xA, 0x100000003, 0x10000000006, 0xF2, 0x8000000000000000, 0x100000007,
      0x80000001].map (decodeTableWord 64)) = List.replicate 9 none := by decide

theorem test_encode_map : encode (.map 0xA2) = 0x000000A200000006 := by decide

/-! ## The pulse width (V-P5, V-P10) -/

theorem test_pulseWidth_first_folded : pulseWidth 0 32769 = 32767 := by decide
theorem test_pulseWidth_across_wrap : pulseWidth 60000 3464 = 9000 := by decide

/-! ## One step of each operation -/

/-- V-Q7. -/
theorem test_nop : regsOf (after (regs .pulseMarker 7 0x5A) 0x0) = some (.pulseMarker, 7, 0x5A) := by
  decide
/-- V-F22. -/
theorem test_feedCap_leader :
    regsOf (after State.reset 0x0D88EA6000000001) = some (.start1, 0, 0) := by decide
/-- V-F24, V-S1. -/
theorem test_feedCap_noise :
    answer (after State.reset 0x0064FFDC00000001) = some (.none, 0, 0, 0, 136) := by decide
/-- V-F13. -/
theorem test_feedW_one :
    regsOf (after (regs .pulseMarker 5 0x15) 0x0000069A00000002) = some (.data1, 6, 0x2B) := by decide
/-- V-F19. -/
theorem test_feedW_overrun :
    regsOf (after (regs .pulseMarker 32 0x00FFA25D) 0x0000023000000002) = some (.reset, 0, 0) := by
  decide
/-- V-T6. -/
theorem test_take_ok :
    answer (after (regs .pulseMarker 32 0x00FFA25D) 0x3) = some (.ok, 0, 0xA2, 0x70, 0) := by decide
/-- V-T13. -/
theorem test_take_implausible :
    answer (after (regs .data1 32 0x00FE00FF) 0x3) = some (.implausible, 0, 0, 0, 0) := by decide
/-- V-Q5. -/
theorem test_stepCap_leader :
    answer (after State.reset 0x0D88EA6000000004) = some (.pending, 0, 0, 0, 9000) := by decide
/-- V-Q6. -/
theorem test_stepCap_reset :
    answer (after (regs .start1 0 0) 0xC) = some (.noData, 0, 0, 0, 0) := by decide
/-- V-Q3. -/
theorem test_stepW_completes :
    answer (after (regs .pulseMarker 31 0x007FD12E) 0x0000069A00000005) =
      some (.ok, 0, 0xA2, 0x70, 1690) := by decide
/-- V-Q4. -/
theorem test_stepW_implausible :
    answer (after (regs .pulseMarker 31 0x007FD12E) 0x0000023000000005) =
      some (.implausible, 0, 0, 0, 560) := by decide
/-- V-M2. -/
theorem test_map_known :
    answer (after (regs .pulseMarker 7 0x5A) 0x000000A200000006) = some (.none, 0, 0xA2, 0x70, 0) := by
  decide
/-- V-M5, default ROM. -/
theorem test_map_fallback :
    answer (after (regs .pulseMarker 7 0x5A) 0x000000FF00000006) = some (.none, 0, 0xFF, 0x78, 0) := by
  decide
/-- V-Q9. -/
theorem test_clear : regsOf (after (regs .data1 32 0x00FFA25D) 0x7) = some (.reset, 0, 0) := by decide
/-- V-E1: the registers stay and the status outputs show them (code 1 is Start1). -/
theorem test_illegal :
    (after (regs .start1 0 0) 0x13).map (fun t => (t.dec.st, t.resp.kind, t.resp.stO)) =
      some (.start1, .illegal, 1) := by decide

/-! ## The response record as bytes (R45, the layout of log entry 7) -/

/-- V-T5: kind 1 and `out_valid` 1 in bits 3..0, `cmd` 0xA2 from bit 12, `out_byte` 0x70 from bit 20. -/
theorem test_responseBytes_ok :
    (after (regs .data1 32 0x00FFA25D) 0x3).map State.responseBytes =
      some [0x09, 0x20, 0x0A, 0x07, 0, 0, 0, 0, 0, 0, 0, 0, 0] := by decide
/-- The word of V-E1 with 32 bits held: kind 5, `st_o` 5 from bit 60, `bits_o` 32 from bit 63, `acc_o` 0x80000001 from
bit 69. -/
theorem test_responseBytes_status :
    (after (regs .data1 32 0x80000001) 0x13).map State.responseBytes =
      some [0x05, 0, 0, 0, 0, 0, 0, 0x50, 0x30, 0, 0, 0, 0x10] := by decide

/-! ## The assembler (R71, R72) -/

theorem test_assemble_hex_comment :
    assembleText "  MAP 0xA2 -- the known key" = .ok [0x000000A200000006] := by decide
theorem test_assemble_out_of_range : assembleText "FEED_CAP 65536, 0" = .error .outOfRange := by decide
theorem test_assemble_leader :
    assembleText "LEADER" = .ok [0x0000232800000005, 0x0000119400000005] := by decide
/-- P1: op 19 and op 20 are the mark and space of the first 1 of the frame. -/
theorem test_necFrame_words :
    ((frameOps (necWord 0x00 0xA2)).map encode)[18]? = some 0x0000023000000005 ∧
    ((frameOps (necWord 0x00 0xA2)).map encode)[19]? = some 0x0000069A00000005 ∧
    ((frameOps (necWord 0x00 0xA2)).map encode)[17]? = some 0x0000023000000005 := by decide

/-! ## Witnesses: states and operands that meet the hypotheses of the statements -/

/-- A state to which one word is presented, and nothing after it. -/
def offered (w : Word) : State := { State.reset with inputs := [{ rst := false, word := some w }] }

theorem witness_EncodeOfDecodeIsTheWord : decode 0x000000A200000006 = .ok (.map 0xA2) := by decide

theorem witness_WordBytesAreLittleEndian :
    7 < 8 ∧ decode 0x000000FF00000006 = .ok (.map 0xFF) ∧
    decode 0x0000010000000006 = .error .reservedMapHigh := by decide

/-- Both ends of each range: the largest operand and the first one refused. -/
theorem witness_AssemblerChecksRangesAndPlacesFields :
    (65535 < 65536 ∧ assemble (.feedCap 65535 65535 .falling) = some [0xFFFFFFFF00000009]) ∧
    (65536 ≤ 65536 ∧ assemble (.stepCap 0 65536 .rising) = none) ∧
    assemble (.feedW 4294967295) = some [0xFFFFFFFF00000002] ∧ assemble (.feedW 4294967296) = none ∧
    assemble (.map 255) = some [0x000000FF00000006] ∧ assemble (.map 256) = none := by decide

theorem witness_StepRunsTheDecodedOperation :
    (offered 3).inputs = { rst := false, word := some 3 } :: [] ∧ decode 3 = .ok .take := by decide

theorem witness_IllegalWordChangesNoRegister :
    ∃ (s : State) (rest more : List PortInput) (p : PortInput),
      s.inputs = { rst := false, word := some 0x13 } :: rest ∧
      decode 0x13 = .error .reservedLow ∧ rest = p :: more ∧ (p.rst = true ∨ p.word.isSome = true) :=
  ⟨{ State.reset with
      inputs := [{ rst := false, word := some 0x13 }, { rst := false, word := some 3 }] },
    [{ rst := false, word := some 3 }], [], { rst := false, word := some 3 }, by decide⟩

theorem witness_HardwareResetZeroesRegistersAndResponse :
    (∃ (s : State) (word : Option Word) (rest : List PortInput),
      s.inputs = { rst := true, word := word } :: rest) ∧ State.reset.inputs = [] ∧
    ∃ (s : State) (rest : List PortInput), s.inputs = { rst := false, word := none } :: rest :=
  ⟨⟨{ State.reset with inputs := [{ rst := true, word := some 3 }] }, some 3, [], rfl⟩, rfl,
    { State.reset with inputs := [{ rst := false, word := none }] }, [], rfl⟩

theorem witness_ClearAndResetLeaveTheSameRegisters :
    ∃ (s r : State) (rest more : List PortInput) (word : Option Word),
      s.inputs = { rst := false, word := some 7 } :: rest ∧
      r.inputs = { rst := true, word := word } :: more :=
  ⟨offered 7, { State.reset with inputs := [{ rst := true, word := none }] }, [], [], none, rfl, rfl⟩

/-- The last difference not folded and the first one folded (V-P3, V-P5). -/
theorem witness_PulseWidthFoldsAboveHalf :
    ((((32768 : Timestamp).toNat : Int) - ((0 : Timestamp).toNat : Int)).natAbs ≤ 32768 ∧
      (pulseWidth 0 32768).toNat = 32768) ∧
    ((((32769 : Timestamp).toNat : Int) - ((0 : Timestamp).toNat : Int)).natAbs > 32768 ∧
      (pulseWidth 0 32769).toNat = 32767) := by decide

theorem witness_PulseWidthIsTheSmallerDifference :
    (((32768 : Timestamp).toNat : Int) - ((0 : Timestamp).toNat : Int)).natAbs ≤ 32768 ∧
    (((32769 : Timestamp).toNat : Int) - ((0 : Timestamp).toNat : Int)).natAbs > 32768 := by decide

/-- An interval of the modulus, and one tick more. -/
theorem witness_LongIntervalsAlias :
    65536 % 65536 = 0 ∧ 65537 % 65536 ≠ 0 ∧
    (pulseWidth 5 (BitVec.ofNat 16 ((5 + 65536) % 65536))).toNat = 0 ∧
    (pulseWidth 5 (BitVec.ofNat 16 ((5 + 65537) % 65536))).toNat = 1 := by decide

/-- Each clause at a bound of its window: V-F1 to V-F9, V-F19. -/
theorem witness_TransitionTableCoversEveryWidth :
    feed 7900 (regs .reset 0 0).dec = (regs .start1 0 0).dec ∧
    feed 10101 (regs .reset 0 0).dec = Decoder.zero ∧
    feed 5600 (regs .start1 0 0).dec = (regs .start2 0 0).dec ∧
    feed 3399 (regs .start1 0 0).dec = Decoder.zero ∧
    feed 750 (regs .data1 1 1).dec = (regs .pulseMarker 1 1).dec ∧
    feed 751 (regs .data1 1 1).dec = Decoder.zero ∧
    feed 350 (regs .pulseMarker 0 0).dec = (regs .data0 1 0).dec ∧
    feed 1900 (regs .pulseMarker 0 0).dec = (regs .data1 1 1).dec ∧
    feed 1399 (regs .pulseMarker 0 0).dec = Decoder.zero ∧
    feed 1901 (regs .pulseMarker 0 0).dec = Decoder.zero ∧
    feed 560 (regs .pulseMarker 32 0x00FFA25D).dec = Decoder.zero := by decide

/-- V-F15 for one bit; 32 bits from an empty accumulator for a run. -/
theorem witness_ShiftInAppendsAtBitZero :
    (31 : BitVec 6).toNat < 32 ∧
    shiftIn true .data1 (regs .pulseMarker 31 0x007FD12E).dec = (regs .data1 32 0x00FFA25D).dec ∧
    (List.replicate 32 true).length = 32 ∧ Decoder.zero.bits = 0 ∧ Decoder.zero.acc = 0 := by decide

theorem witness_FirstByteReceivedIsTheHighByte :
    Decoder.zero.bits = 0 ∧ Decoder.zero.acc = 0 := by decide

theorem witness_OverrunResets :
    (regs .pulseMarker 32 0x00FFA25D).dec.bits.toNat = 32 ∧
    350 ≤ (350 : Width).toNat ∧ (1900 : Width).toNat ≤ 1900 ∧
    stepDiscipline (.stepW 1690) = true ∧ (regs .pulseMarker 31 0).dec.bits.toNat < 32 ∧
    (nextState (exec (.stepW 1690) (regs .pulseMarker 31 0))).isSome = true := by decide

theorem witness_SixtySixFeedsCompleteAFrame :
    7900 ≤ (7900 : Width).toNat ∧ (7900 : Width).toNat ≤ 10100 ∧
    3400 ≤ (5600 : Width).toNat ∧ (5600 : Width).toNat ≤ 5600 ∧
    (List.replicate 32 ((750 : Width), (1900 : Width))).length = 32 ∧
    (∀ c ∈ List.replicate 32 ((750 : Width), (1900 : Width)),
      350 ≤ c.1.toNat ∧ c.1.toNat ≤ 750 ∧
      ((350 ≤ c.2.toNat ∧ c.2.toNat ≤ 750) ∨ (1400 ≤ c.2.toNat ∧ c.2.toNat ≤ 1900))) :=
  ⟨by decide, by decide, by decide, by decide, by decide,
    fun c h => by rw [List.eq_of_mem_replicate h]; decide⟩

theorem witness_NewLeaderInsideAFrameIsLost :
    (regs .pulseMarker 1 1).dec.st ≠ .reset ∧ Decoder.zero.st = .reset ∧
    (feedAll [9000, 4500, 560, 1690] (regs .pulseMarker 1 1).dec).st = .reset ∧
    (∀ w ∈ [(560 : Width), 1690], w.toNat ≤ 1900) :=
  ⟨by decide, by decide, by decide, by simp⟩

/-- V-F17 and P4. -/
theorem witness_BitMarkKeepsAWaitingFrame :
    (regs .data1 32 0x00FFA25D).dec.bits.toNat = 32 ∧ (regs .data1 32 0x00FFA25D).dec.st = .data1 ∧
    350 ≤ (350 : Width).toNat ∧ (750 : Width).toNat ≤ 750 := by decide

theorem witness_NopKeepsTheRegisters :
    (∃ t, State.reset.inputs = [] ∧ exec .nop State.reset = .next t) ∧
    ∃ (s t : State) (rest : List PortInput), s.inputs = { rst := false, word := none } :: rest ∧
      exec .nop s = .next t :=
  ⟨⟨_, rfl, rfl⟩, { State.reset with inputs := [{ rst := false, word := none }] }, _, [], rfl, rfl⟩

theorem witness_FeedCapFeedsThePulseWidth :
    (9000 : Width).toNat =
      min (((3464 : Timestamp).toNat : Int) - ((60000 : Timestamp).toNat : Int)).natAbs
        (65536 - (((3464 : Timestamp).toNat : Int) - ((60000 : Timestamp).toNat : Int)).natAbs) := by
  decide

/-- A frame whose pairs add up to 255 and one whose pairs do not (V-T5, V-T9). -/
theorem witness_TakeConsumesACompleteFrame :
    (regs .data1 32 0x00FFA25D).dec.bits.toNat = 32 ∧
    (0x00FFA25D / 2 ^ 24 + 0x00FFA25D / 2 ^ 16 % 256 = 255 ∧
      0x00FFA25D / 2 ^ 8 % 256 + 0x00FFA25D % 256 = 255) ∧
    ¬(0x00FFA25C / 2 ^ 24 + 0x00FFA25C / 2 ^ 16 % 256 = 255 ∧
      0x00FFA25C / 2 ^ 8 % 256 + 0x00FFA25C % 256 = 255) := by decide

/-- Both answers: V-T1 and V-T4. -/
theorem witness_TakeWithoutAFrameChangesNothing :
    State.reset.dec.bits.toNat ≠ 32 ∧ (regs .pulseMarker 31 0x007FD12E).dec.bits.toNat ≠ 32 ∧
    (regs .reset 32 0).dec.bits.toNat = 32 ∧
    answer (nextState (exec .take State.reset)) = some (.noData, 0, 0, 0, 0) ∧
    answer (nextState (exec .take (regs .pulseMarker 31 0x007FD12E))) = some (.pending, 0, 0, 0, 0) := by
  decide

theorem witness_ChecksumLaw :
    (regs .data1 32 0x00FFA25D).dec.acc = (0x00 : Byte) ++ ~~~(0x00 : Byte) ++ (0xA2 : Byte) ++ ~~~(0xA2 : Byte) ∧
    (31 < 32 ∧ (regs .data1 32 0x80FFA25D).dec.acc =
      ((0x00 : Byte) ++ ~~~(0x00 : Byte) ++ (0xA2 : Byte) ++ ~~~(0xA2 : Byte)) ^^^ BitVec.twoPow 32 31) ∧
    (regs .data1 32 0x80FFA25D).dec.bits.toNat = 32 := by decide

theorem witness_TakeIsIdempotentReset :
    (∃ t, exec .take (regs .data1 32 0x00FFA25D) = .next t ∧ t.resp.kind = .ok) ∧
    (∃ t, exec .take (regs .start1 0 0) = .next t ∧ t.resp.kind = .pending) :=
  ⟨⟨_, rfl, by decide⟩, ⟨_, rfl, by decide⟩⟩

/-- Each result of a step: V-Q3, V-Q2, V-Q1, and the width of a STEP_CAP (V-Q5). -/
theorem witness_StepResultFollowsItsFeed :
    (9000 : Width) = captureWidth 60000 3464 ∧
    (regs .pulseMarker 31 0x007FD12E).dec.bits.toNat < 32 ∧
    (feed 1690 (regs .pulseMarker 31 0x007FD12E).dec).bits.toNat = 32 ∧
    (feed 4500 State.reset.dec).bits.toNat ≠ 32 ∧ (feed 4500 State.reset.dec).st = .reset ∧
    (feed 9000 State.reset.dec).bits.toNat ≠ 32 ∧ (feed 9000 State.reset.dec).st ≠ .reset := by decide

theorem witness_StepDisciplineNeverOverruns :
    (∀ i ∈ [Instr.stepW 9000, .nop, .map 0xA2, .stepCap .rising 3464 7964, .clear],
      stepDiscipline i = true) ∧
    State.reset.dec.bits.toNat ≤ 31 ∧
    (feed 1690 (regs .pulseMarker 31 0x007FD12E).dec).bits.toNat = 32 ∧
    (feed (captureWidth 8524 10214) (regs .pulseMarker 31 0x007FD12E).dec).bits.toNat = 32 ∧
    (regs .pulseMarker 32 0x00FFA25D).dec.bits.toNat = 32 := by decide

theorem witness_FrameStepsDecodeTheFrame : State.reset.dec = Decoder.zero := by decide

theorem witness_OutcomeCodesByOperation :
    (offered 3).inputs = { rst := false, word := some 3 } :: [] ∧
    decode 0x13 = .error .reservedLow ∧ decode 0 = .ok .nop ∧
    takeView .nop Decoder.zero = none ∧ decode 3 = .ok .take ∧
    takeView .take (regs .data1 32 0x00FFA25D).dec = some (regs .data1 32 0x00FFA25D).dec ∧
    (splitFrame 0x00FFA25D).valid = true ∧ (splitFrame 0x00FFA25C).valid = false := by decide

theorem witness_OnlyAValidFrameGivesAByte :
    (∃ t, step (offered 0x000000A200000006) = .next t ∧ t.resp.kind = .none) ∧
    ∃ t, step { regs .data1 32 0x00FFA25D with inputs := [{ rst := false, word := some 3 }] } = .next t ∧
      t.resp.kind = .ok :=
  ⟨⟨_, rfl, by decide⟩, ⟨_, rfl, by decide⟩⟩

theorem witness_OperationsKeepTheirFrame :
    ∃ t, exec .take (regs .start1 0 0) = .next t ∧ (Instr.take).op = .take ∧
      (regs .start1 0 0).dec.bits.toNat ≠ 32 := ⟨_, rfl, rfl, by decide⟩

theorem witness_StepKeepsTheRomAndServesOneInput : ∃ t, step (offered 0x13) = .next t := ⟨_, rfl⟩

theorem witness_RomContentsAndParameter :
    (0x45 : Byte) ≠ 0xA2 ∧ romDefault 0xA2 = 0x70 ∧
    (Memory.setRow 0x45 0x31 []).wf ∧ (Memory.setRow 0x45 0x31 []).read 0x45 = 0x31 := by decide

theorem witness_StepKeepsTheInvariant :
    (offered 0x0000232800000002).Inv ∧ ∃ t, step (offered 0x0000232800000002) = .next t :=
  ⟨by decide, _, rfl⟩

/-- The default ROM, and one with a row of its own. -/
theorem witness_ResetHasTheInvariant :
    Memory.wf [] ∧ Memory.namedRow [] ∧ Memory.wf [(0x45, 0x31)] ∧ Memory.namedRow [(0x45, 0x31)] := by
  decide

theorem witness_ReachableStatesSatisfyTheInvariants : Reachable State.reset :=
  Reachable.boot [] [] (by decide) (by decide)

theorem witness_ResponseBytesAreLittleEndian :
    12 < 13 ∧ responseOfBytes (List.replicate 13 0) = some Response.zero ∧
    6 ≤ (0x0E : Byte).toNat % 8 := by decide

end Sys2Proof.Tests
end

section
/-! SUPPORT. Scope (00_scope.md R7, 10_state.md section 2): what every step keeps. Each part of the
invariant has its lemma per shared operation, and the step theorems follow from `exec_cases` and
`step_cases`. -/

namespace Sys2Proof.Machine

/-! ## The register invariants (a) to (e) of R28 -/

theorem zero_inv : Decoder.zero.Inv := by decide

/-- With nothing received yet, the invariant holds in every phase but the two that follow a data bit. -/
theorem inv_of_empty (d : Decoder) (h0 : d.st ≠ .data0) (h1 : d.st ≠ .data1) (hbits : d.bits = 0)
    (hacc : d.acc = 0) : d.Inv := by
  simp [Decoder.Inv, h0, h1, hbits, hacc]

/-- A bit mark keeps the invariant: PulseMarker asks nothing of `BITS` and `ACC` beyond what every
phase does. -/
theorem pulseMarker_keeps_inv (d : Decoder) (h : d.Inv) :
    ({ d with st := .pulseMarker } : Decoder).Inv := by
  obtain ⟨-, hle, -, -, -, hbound⟩ := h
  simpa [Decoder.Inv, hle] using hbound

/-- Appending a bit at most doubles the accumulator's bound (R97). -/
theorem append_bit_lt (n a : Nat) (b : Bool) (h : a < 2 ^ n) :
    (2 * a + b.toNat) % 2 ^ 32 < 2 ^ (n + 1) := by
  have hb := Bool.toNat_le b
  calc (2 * a + b.toNat) % 2 ^ 32 ≤ 2 * a + b.toNat := Nat.mod_le _ _
    _ < 2 ^ (n + 1) := by omega

/-- After a data bit, the phase says what that bit was. -/
theorem inv_of_data (d : Decoder)
    (hphase : (d.st = .data0 ∧ d.acc.getLsbD 0 = false) ∨ (d.st = .data1 ∧ d.acc.getLsbD 0 = true))
    (hpos : 1 ≤ d.bits.toNat) (hle : d.bits.toNat ≤ 32) (hbound : d.acc.toNat < 2 ^ d.bits.toNat) :
    d.Inv := by
  rcases hphase with ⟨hst, hbit⟩ | ⟨hst, hbit⟩
  · exact ⟨by simp [hst], hle, by simp [hst], fun _ => ⟨hpos, hbit⟩, by simp [hst], fun _ => hbound⟩
  · exact ⟨by simp [hst], hle, by simp [hst], by simp [hst], fun _ => ⟨hpos, hbit⟩, fun _ => hbound⟩

/-- A bit shifted into the phase of its value keeps the invariant (R96, R97), and an overrun resets
(R98). -/
theorem shiftIn_keeps_inv (b : Bool) (next : Phase) (d : Decoder) (h : d.Inv)
    (hnext : (next = .data0 ∧ b = false) ∨ (next = .data1 ∧ b = true)) : (shiftIn b next d).Inv := by
  rcases shiftIn_cases b next d with ⟨hlt, hst, hbits, hacc, hbit⟩ | ⟨-, hzero⟩
  · obtain ⟨-, -, -, -, -, hbound⟩ := h
    have hsize := append_bit_lt d.bits.toNat d.acc.toNat b (hbound hlt)
    rw [← hacc, ← hbits] at hsize
    exact inv_of_data _ (by rw [hst, hbit]; exact hnext) (by omega) (by omega) hsize
  · rw [hzero]
    exact zero_inv

theorem feed_keeps_inv (w : Width) (d : Decoder) (h : d.Inv) : (feed w d).Inv := by
  have ⟨hreset, _, hstart, _⟩ := h
  rcases feed_cases w d with hf | ⟨hst, -, hf⟩ | ⟨hst, -, hf⟩ | ⟨-, -, hf⟩ | ⟨-, -, -, hf⟩ |
    ⟨-, -, -, hf⟩ <;> rw [hf]
  · exact zero_inv
  · obtain ⟨hbits, hacc⟩ := hreset hst
    exact inv_of_empty _ nofun nofun hbits hacc
  · obtain ⟨hbits, hacc⟩ := hstart (.inl hst)
    exact inv_of_empty _ nofun nofun hbits hacc
  · exact pulseMarker_keeps_inv d h
  · exact shiftIn_keeps_inv false .data0 d h (.inl ⟨rfl, rfl⟩)
  · exact shiftIn_keeps_inv true .data1 d h (.inr ⟨rfl, rfl⟩)

/-- A take resets the registers or leaves them (R121, R122). -/
theorem takeFrame_keeps_inv (rom : Memory) (d : Decoder) (h : d.Inv) : (takeFrame rom d).1.Inv := by
  rcases takeFrame_cases rom d with ⟨-, ht⟩ | ⟨-, -, ht⟩ | ⟨-, -, ht⟩ <;> rw [ht]
  · exact zero_inv
  · exact h
  · exact h

/-! ## The response's invariant (R29) -/

/-- `out_valid` is 1 exactly when the kind is OK. -/
abbrev Response.ValidIffOk (r : Response) : Prop := r.outValid = true ↔ r.kind = .ok

theorem validIffOk_of_not_valid (r : Response) (hvalid : r.outValid = false) (hkind : r.kind ≠ .ok) :
    r.ValidIffOk := by
  simp [Response.ValidIffOk, hvalid, hkind]

theorem frameResponse_validIffOk (rom : Memory) (f : DecodedFrame) :
    (frameResponse rom f).ValidIffOk := by
  rcases frameResponse_cases rom f with ⟨-, hr⟩ | ⟨-, hr⟩ <;> rw [hr]
  · exact ⟨fun _ => rfl, fun _ => rfl⟩
  · exact validIffOk_of_not_valid _ rfl nofun

theorem takeFrame_validIffOk (rom : Memory) (d : Decoder) : (takeFrame rom d).2.ValidIffOk := by
  rcases takeFrame_cases rom d with ⟨-, ht⟩ | ⟨-, -, ht⟩ | ⟨-, -, ht⟩ <;> rw [ht]
  · exact frameResponse_validIffOk rom _
  · exact validIffOk_of_not_valid _ rfl nofun
  · exact validIffOk_of_not_valid _ rfl nofun

/-! ## What every step keeps -/

/-- The end of an operation keeps the invariant when its registers and its response have theirs: the
status outputs are copied there (R30), and the ROM is not written. -/
theorem complete_keeps_inv (s : State) (d : Decoder) (r : Response) (hs : s.Inv) (hd : d.Inv)
    (hr : r.ValidIffOk) : (complete s d r).Inv := by
  obtain ⟨-, -, hrom⟩ := hs
  exact ⟨hd, ⟨rfl, rfl, rfl, hr⟩, hrom⟩

theorem feedOp_keeps_inv (w : Width) (s : State) (h : s.Inv) : (feedOp w s).Inv :=
  complete_keeps_inv s _ _ h (feed_keeps_inv w s.dec h.1) (validIffOk_of_not_valid _ rfl nofun)

theorem stepOp_keeps_inv (w : Width) (s : State) (h : s.Inv) : (stepOp w s).Inv :=
  complete_keeps_inv s _ _ h (takeFrame_keeps_inv s.rom _ (feed_keeps_inv w s.dec h.1))
    (takeFrame_validIffOk s.rom _)

theorem raiseIllegal_keeps_inv (s : State) (h : s.Inv) : (raiseIllegal s).Inv :=
  complete_keeps_inv s _ _ h h.1 (validIffOk_of_not_valid _ rfl nofun)

/-- The zero registers and the zero response have their invariants, over any ROM a build allows. -/
theorem inv_of_zero (s : State) (hdec : s.dec = Decoder.zero) (hresp : s.resp = Response.zero)
    (hwf : s.rom.wf) (hrow : s.rom.namedRow) : s.Inv := by
  refine ⟨?_, ?_, hwf, hrow⟩
  · rw [hdec]
    exact zero_inv
  · rw [hdec, hresp]
    decide

theorem exec_keeps_inv (i : Instr) (s t : State) (hs : s.Inv) (h : exec i s = .next t) : t.Inv := by
  rcases exec_cases i s t h with ⟨-, rfl⟩ | ⟨-, t1, t2, -, rfl⟩ | ⟨w, -, rfl⟩ | ⟨-, rfl⟩ |
    ⟨-, t1, t2, -, rfl⟩ | ⟨w, -, rfl⟩ | ⟨c, -, rfl⟩ | ⟨-, rfl⟩
  · exact complete_keeps_inv s _ _ hs hs.1 (validIffOk_of_not_valid _ rfl nofun)
  · exact feedOp_keeps_inv _ s hs
  · exact feedOp_keeps_inv w s hs
  · exact complete_keeps_inv s _ _ hs (takeFrame_keeps_inv s.rom s.dec hs.1)
      (takeFrame_validIffOk s.rom s.dec)
  · exact stepOp_keeps_inv _ s hs
  · exact stepOp_keeps_inv w s hs
  · exact complete_keeps_inv s _ _ hs hs.1 (validIffOk_of_not_valid _ rfl nofun)
  · exact complete_keeps_inv s _ _ hs zero_inv (validIffOk_of_not_valid _ rfl nofun)

/-- Settles O47: every step holds the state, resets it, runs an operation or takes the ILLEGAL outcome,
and each of these keeps the invariant, which does not speak of the inputs. -/
theorem stepKeepsTheInvariant : Obligations.StepKeepsTheInvariant := by
  intro s t hs h
  rcases step_cases s t h with ⟨-, rfl⟩ | ⟨p, rest, -, hp⟩
  · exact hs
  · have hserved : ({ s with inputs := rest } : State).Inv := hs
    rcases hp with ⟨-, rfl⟩ | ⟨-, -, rfl⟩ | ⟨w, i, -, -, -, hexec⟩ | ⟨w, e, -, -, -, rfl⟩
    · obtain ⟨-, -, hwf, hrow⟩ := hs
      exact inv_of_zero _ rfl rfl hwf hrow
    · exact hserved
    · exact exec_keeps_inv i _ t hserved hexec
    · exact raiseIllegal_keeps_inv _ hserved

/-- No operation writes the ROM or touches what is presented (R42). -/
theorem exec_keeps_rom_and_inputs (i : Instr) (s t : State) (h : exec i s = .next t) :
    t.rom = s.rom ∧ t.inputs = s.inputs := by
  rcases exec_cases i s t h with ⟨-, rfl⟩ | ⟨-, t1, t2, -, rfl⟩ | ⟨w, -, rfl⟩ | ⟨-, rfl⟩ |
    ⟨-, t1, t2, -, rfl⟩ | ⟨w, -, rfl⟩ | ⟨c, -, rfl⟩ | ⟨-, rfl⟩ <;> exact ⟨rfl, rfl⟩

/-- A step keeps the ROM's rows and takes the oldest input off, if there is one. -/
theorem step_keeps_rom_and_takes_input (s t : State) (h : step s = .next t) :
    t.rom = s.rom ∧ t.inputs = s.inputs.tail := by
  rcases step_cases s t h with ⟨hin, rfl⟩ | ⟨p, rest, hin, hp⟩
  · simp [hin]
  · rw [hin, List.tail_cons]
    rcases hp with ⟨-, rfl⟩ | ⟨-, -, rfl⟩ | ⟨w, i, -, -, -, hexec⟩ | ⟨w, e, -, -, -, rfl⟩
    · exact ⟨rfl, rfl⟩
    · exact ⟨rfl, rfl⟩
    · exact exec_keeps_rom_and_inputs i _ t hexec
    · exact ⟨rfl, rfl⟩

/-- Settles O43: the rows are the same, so every entry reads the same. -/
theorem stepKeepsTheRomAndServesOneInput : Obligations.StepKeepsTheRomAndServesOneInput := by
  intro s t h
  obtain ⟨hrom, hin⟩ := step_keeps_rom_and_takes_input s t h
  exact ⟨hrom, fun c => by rw [hrom], hin⟩

/-- Settles O48: reset leaves the zero registers and the zero response. -/
theorem resetHasTheInvariant : Obligations.ResetHasTheInvariant :=
  fun rom inputs hwf hrow =>
    inv_of_zero (State.boot rom inputs) (boot_dec rom inputs) (boot_resp rom inputs) hwf hrow

end Sys2Proof.Machine
end

section
/-! SUPPORT. State (10_state.md): the reset values, what an operation leaves in the registers and on the
response, and the codes of the phases and the results with the response record as bytes. -/

namespace Sys2Proof.Machine

/-! ## A step by what is presented -/

theorem step_of_empty (s : State) (hin : s.inputs = []) : step s = .next s := by
  simp only [step, hin]

theorem step_of_rst (s : State) (word : Option Word) (rest : List PortInput)
    (hin : s.inputs = { rst := true, word := word } :: rest) :
    step s = .next (hardwareReset { s with inputs := rest }) := by
  simp only [step, hin, servePort, if_true]

theorem step_of_no_word (s : State) (rest : List PortInput)
    (hin : s.inputs = { rst := false, word := none } :: rest) :
    step s = .next { s with inputs := rest } := by
  simp [step, hin, servePort]

/-- A presented word is run when it decodes, and is ILLEGAL when it does not. -/
theorem step_word_cases (s t : State) (w : Word) (rest : List PortInput)
    (hin : s.inputs = { rst := false, word := some w } :: rest) (h : step s = .next t) :
    (∃ i, decode w = .ok i ∧ exec i { s with inputs := rest } = .next t) ∨
    (∃ e, decode w = .error e ∧ t = raiseIllegal { s with inputs := rest }) := by
  rcases step_cases s t h with ⟨hnil, -⟩ | ⟨p, more, hcons, hp⟩
  · simp [hin] at hnil
  · obtain ⟨rfl, rfl⟩ := List.cons.inj (hin.symm.trans hcons)
    rcases hp with ⟨hrst, -⟩ | ⟨-, hword, -⟩ | ⟨v, i, -, hword, hdec, hexec⟩ |
      ⟨v, e, -, hword, hdec, ht⟩
    · cases hrst
    · cases hword
    · cases hword
      exact .inl ⟨i, hdec, hexec⟩
    · cases hword
      exact .inr ⟨e, hdec, ht⟩

/-! ## An output byte comes only from a valid frame (R143, R144) -/

theorem takeFrame_outByte_of_not_ok (rom : Memory) (d : Decoder)
    (h : (takeFrame rom d).2.kind ≠ .ok) : (takeFrame rom d).2.outByte = 0 := by
  rcases takeFrame_cases rom d with ⟨-, ht⟩ | ⟨-, -, ht⟩ | ⟨-, -, ht⟩ <;> rw [ht] at h ⊢
  · rcases frameResponse_cases rom (splitFrame d.acc) with ⟨-, hr⟩ | ⟨-, hr⟩ <;> rw [hr] at h ⊢
    · exact absurd rfl h
    · rfl
  · rfl
  · rfl

/-- The operations that take: TAKE itself and the two step operations (R125, R150, R151). -/
abbrev Op.takes (o : Op) : Prop := o = .take ∨ o = .stepCap ∨ o = .stepW

/-- Where the result on a response comes from: a take of some registers, or an operation that does not
take, whose kind is NONE and which drives `out_byte` only if it is MAP. -/
theorem exec_result_cases (i : Instr) (s t : State) (h : exec i s = .next t) :
    (Op.takes i.op ∧ ∃ d, t.resp.kind = (takeFrame s.rom d).2.kind ∧
      t.resp.outValid = (takeFrame s.rom d).2.outValid ∧
      t.resp.outByte = (takeFrame s.rom d).2.outByte) ∨
    (t.resp.kind = .none ∧ t.resp.outValid = false ∧ (t.resp.outByte = 0 ∨ ∃ c, i = .map c)) := by
  rcases exec_cases i s t h with ⟨-, rfl⟩ | ⟨-, t1, t2, -, rfl⟩ | ⟨w, -, rfl⟩ | ⟨rfl, rfl⟩ |
    ⟨-, t1, t2, rfl, rfl⟩ | ⟨w, rfl, rfl⟩ | ⟨c, hmap, rfl⟩ | ⟨-, rfl⟩
  · exact .inr ⟨rfl, rfl, .inl rfl⟩
  · exact .inr ⟨rfl, rfl, .inl rfl⟩
  · exact .inr ⟨rfl, rfl, .inl rfl⟩
  · exact .inl ⟨.inl rfl, s.dec, rfl, rfl, rfl⟩
  · exact .inl ⟨.inr (.inl rfl), feed (captureWidth t1 t2) s.dec, rfl, rfl, rfl⟩
  · exact .inl ⟨.inr (.inr rfl), feed w s.dec, rfl, rfl, rfl⟩
  · exact .inr ⟨rfl, rfl, .inr ⟨c, hmap⟩⟩
  · exact .inr ⟨rfl, rfl, .inl rfl⟩

/-- Settles O41: an ILLEGAL word drives no byte, and neither does an operation that does not take, but
for MAP; a take drives one only on OK. -/
theorem onlyAValidFrameGivesAByte : Obligations.OnlyAValidFrameGivesAByte := by
  intro s t w rest hin h
  rcases step_word_cases s t w rest hin h with ⟨i, hdec, hexec⟩ | ⟨e, -, rfl⟩
  · rcases exec_result_cases i _ t hexec with ⟨htakes, d, hkind, hvalid, hbyte⟩ |
      ⟨hkind, hvalid, hbyte⟩
    · rw [hkind, hvalid, hbyte]
      exact ⟨takeFrame_validIffOk _ d, fun hne => .inl (takeFrame_outByte_of_not_ok _ d hne),
        fun _ => ⟨i, hdec, htakes⟩⟩
    · refine ⟨validIffOk_of_not_valid _ hvalid (by simp [hkind]), fun _ => ?_, by simp [hkind]⟩
      exact hbyte.imp_right fun ⟨c, hmap⟩ => ⟨c, hmap ▸ hdec⟩
  · exact ⟨validIffOk_of_not_valid _ rfl nofun, fun _ => .inl rfl, nofun⟩

/-! ## The codes (R21, R66) -/

theorem phase_code_lt (p : Phase) : p.code.toNat < 6 := by
  cases p <;> decide

theorem kind_code_lt (k : ResultKind) : k.code.toNat < 6 := by
  cases k <;> decide

/-- A code below 6 is neither of the two that are not assigned. -/
theorem code_assigned_of_lt (c : BitVec 3) (h : c.toNat < 6) : c ≠ 6 ∧ c ≠ 7 := by
  constructor <;> (rintro rfl; exact absurd h (by decide))

/-- Settles O50: each code is its constructor's, and all are below 6. -/
theorem phaseAndResultCodes : Obligations.PhaseAndResultCodes :=
  ⟨⟨rfl, rfl, rfl, rfl, rfl, rfl⟩, ⟨rfl, rfl, rfl, rfl, rfl, rfl⟩,
    fun p => code_assigned_of_lt _ (phase_code_lt p),
    fun k => code_assigned_of_lt _ (kind_code_lt k)⟩

/-! ## The response record as bytes (R29, R45) -/

/-- A field of a value as a number: the part above `lo`, cut to the field's width. -/
theorem extract_eq_of_toNat {m n : Nat} (v : BitVec m) (lo : Nat) (x : BitVec n)
    (h : v.toNat / 2 ^ lo % 2 ^ n = x.toNat) : v.extractLsb' lo n = x := by
  apply BitVec.eq_of_toNat_eq
  rw [BitVec.extractLsb'_toNat, Nat.shiftRight_eq_div_pow, h]

theorem getLsbD_toNat {m : Nat} (v : BitVec m) (k : Nat) :
    (v.getLsbD k).toNat = v.toNat / 2 ^ k % 2 := by
  rw [BitVec.getLsbD, Nat.toNat_testBit]

/-- Every field of a record reads back from its value. -/
theorem unpack_pack (r : Response) : Response.unpack r.pack = some r := by
  have hkind := r.kind.code.isLt
  have hvalid := Bool.toNat_lt r.outValid
  have haddr := r.addr.isLt
  have hcmd := r.cmd.isLt
  have hbyte := r.outByte.isLt
  have hwidth := r.width.isLt
  have hst := r.stO.isLt
  have hbits := r.bitsO.isLt
  have hacc := r.accO.isLt
  have hsum := pack_toNat r
  have kindBits : r.pack.extractLsb' 0 3 = r.kind.code := extract_eq_of_toNat _ _ _ (by omega)
  have validBit : r.pack.getLsbD 3 = r.outValid := by
    rw [Bool.eq_iff_iff, ← Bool.toNat_eq_one, ← Bool.toNat_eq_one, getLsbD_toNat]
    omega
  have addrBits : r.pack.extractLsb' 4 8 = r.addr := extract_eq_of_toNat _ _ _ (by omega)
  have cmdBits : r.pack.extractLsb' 12 8 = r.cmd := extract_eq_of_toNat _ _ _ (by omega)
  have byteBits : r.pack.extractLsb' 20 8 = r.outByte := extract_eq_of_toNat _ _ _ (by omega)
  have widthBits : r.pack.extractLsb' 28 32 = r.width := extract_eq_of_toNat _ _ _ (by omega)
  have stBits : r.pack.extractLsb' 60 3 = r.stO := extract_eq_of_toNat _ _ _ (by omega)
  have bitsBits : r.pack.extractLsb' 63 6 = r.bitsO := extract_eq_of_toNat _ _ _ (by omega)
  have accBits : r.pack.extractLsb' 69 32 = r.accO := extract_eq_of_toNat _ _ _ (by omega)
  simp only [Response.unpack, kindBits, validBit, addrBits, cmdBits, byteBits, widthBits, stBits,
    bitsBits, accBits, kindOfCode_code]

/-- The fields cover the value: no bit of it is dropped in the record read from it. -/
theorem pack_of_unpack (v : BitVec 101) (r : Response) (h : Response.unpack v = some r) :
    r.pack = v := by
  unfold Response.unpack at h
  split at h
  · rename_i kind hkind
    cases h
    have hcode := kindOfCode_eq_some _ _ hkind
    have hv := v.isLt
    apply BitVec.eq_of_toNat_eq
    rw [pack_toNat]
    simp only [hcode, getLsbD_toNat, BitVec.extractLsb'_toNat, Nat.shiftRight_eq_div_pow]
    omega
  · cases h

theorem unpack_eq_some_iff (v : BitVec 101) (r : Response) :
    Response.unpack v = some r ↔ r.pack = v :=
  ⟨pack_of_unpack v r, fun h => h ▸ unpack_pack r⟩

/-- The 13 bytes of a record hold its whole value. -/
theorem natOfBytes_bytesOfResponse (r : Response) : natOfBytes (bytesOfResponse r) = r.pack.toNat := by
  have h := r.pack.isLt
  rw [bytesOfResponse, natOfBytes_bytesLE, responseByteCount]
  omega

/-- The bytes that read as a record are that record's own. -/
theorem responseOfBytes_eq_some_iff (bs : List Byte) (r : Response) :
    responseOfBytes bs = some r ↔ bytesOfResponse r = bs := by
  unfold responseOfBytes
  constructor
  · intro h
    split at h
    · rename_i hbs
      obtain ⟨hlen, hlt⟩ := hbs
      have hpack := (unpack_eq_some_iff _ r).1 h
      refine natOfBytes_inj _ bs ((bytesLE_length _ _).trans hlen.symm) ?_
      rw [natOfBytes_bytesOfResponse, hpack, BitVec.toNat_ofNat, Nat.mod_eq_of_lt hlt]
    · cases h
  · rintro rfl
    rw [natOfBytes_bytesOfResponse, if_pos ⟨bytesLE_length _ _, r.pack.isLt⟩, BitVec.ofNat_toNat,
      BitVec.setWidth_eq, unpack_pack]

/-- The first byte of a record has its result code in the low three bits. -/
theorem head_bytesOfResponse_mod (r : Response) (b : Byte) (bs : List Byte)
    (h : bytesOfResponse r = b :: bs) : b.toNat % 8 = r.kind.code.toNat := by
  have hkind := r.kind.code.isLt
  have hsum := natOfBytes_bytesOfResponse r
  rw [h, natOfBytes, pack_toNat] at hsum
  omega

/-- Settles O51: the bytes are those of the packed value, the packed value is the sum of the placed
fields, and reading back inverts both; the first byte of a record carries an assigned code. -/
theorem responseBytesAreLittleEndian : Obligations.ResponseBytesAreLittleEndian := by
  refine ⟨fun r => ⟨bytesLE_length _ _, fun k hk => bytesLE_getElem _ _ k hk, pack_toNat r,
    (responseOfBytes_eq_some_iff _ r).2 rfl⟩, fun bs r => (responseOfBytes_eq_some_iff bs r).1, ?_⟩
  intro b bs hb
  rw [Option.eq_none_iff_forall_ne_some]
  intro r hr
  have hhead := head_bytesOfResponse_mod r b bs ((responseOfBytes_eq_some_iff _ r).1 hr)
  have hcode := kind_code_lt r.kind
  omega

/-! ## Reset (R34, R190) -/

/-- Settles O11: the three things that may be presented instead of a word to run. -/
theorem hardwareResetZeroesRegistersAndResponse :
    Obligations.HardwareResetZeroesRegistersAndResponse :=
  ⟨fun s word rest hin => ⟨_, step_of_rst s word rest hin, rfl, rfl, rfl⟩, step_of_empty,
    step_of_no_word⟩

/-- Settles O12: the reset state is the zero registers and response, and reset gives any state those. -/
theorem resetStateValues : Obligations.ResetStateValues :=
  ⟨rfl, rfl, rfl, rfl, rfl, fun s => ⟨hardwareReset_dec s, hardwareReset_resp s,
    fun c => congrArg (Memory.read · c) (hardwareReset_rom s)⟩⟩

/-! ## The full next state of an operation -/

theorem exec_nop (s : State) : exec .nop s = .next (complete s s.dec .zero) := rfl

theorem exec_feedW (w : Width) (s : State) : exec (.feedW w) s = .next (feedOp w s) := rfl

theorem exec_map (c : Byte) (s : State) : exec (.map c) s =
    .next (complete s s.dec { Response.zero with cmd := c, outByte := s.rom.read c }) := rfl

theorem exec_clear (s : State) : exec .clear s = .next (complete s Decoder.zero .zero) := rfl

/-- Settles O26: NOP keeps the registers, and so does a step with no word. -/
theorem nopKeepsTheRegisters : Obligations.NopKeepsTheRegisters := by
  refine ⟨exec_nop, fun s t hin h => ?_⟩
  rw [exec_nop] at h
  cases h
  rcases hin with hin | ⟨rest, hin⟩
  · exact ⟨s, step_of_empty s hin, rfl⟩
  · exact ⟨_, step_of_no_word s rest hin, rfl⟩

/-- Settles O27: the feed's completion, with its response's fields written out. -/
theorem feedWFeedsItsWidth : Obligations.FeedWFeedsItsWidth := exec_feedW

/-- Settles O35: MAP's completion, with its response's fields written out. -/
theorem mapReadsTheRom : Obligations.MapReadsTheRom := exec_map

/-- Settles O36: CLEAR completes the zero registers, whose status outputs are 0. -/
theorem clearForcesReset : Obligations.ClearForcesReset := exec_clear

/-! ## The response is write-only (R25, R29) -/

/-- The end of an operation writes every field of the response, so the one before is lost. -/
theorem complete_overwrites_resp (s : State) (d : Decoder) (q r : Response) :
    complete { s with resp := q } d r = complete s d r := rfl

/-- Settles O44: every operation computes its registers and its response from `dec` and `rom` alone,
and ends by overwriting the old response. -/
theorem responseIsNeverRead : Obligations.ResponseIsNeverRead := by
  intro i s q
  cases i <;> exact congrArg Host.Outcome.next (complete_overwrites_resp s _ q _)

end Sys2Proof.Machine
end

section
/-! SUPPORT. Memory (20_memory.md): the word carried as bytes, the step that runs a decoded operation,
what the operations leave unchanged, and how far the ROM's contents reach. -/

namespace Sys2Proof

/-! ## A word carried as bytes (R45) -/

/-- The eight bytes of a word, put together, are the word: each joins the byte below it. -/
theorem wordOfBytes_extract (w : Word) :
    wordOfBytes (w.extractLsb' 0 8) (w.extractLsb' 8 8) (w.extractLsb' 16 8) (w.extractLsb' 24 8)
      (w.extractLsb' 32 8) (w.extractLsb' 40 8) (w.extractLsb' 48 8) (w.extractLsb' 56 8) = w := by
  simp (disch := omega) only [wordOfBytes, BitVec.extractLsb'_append_extractLsb'_eq_extractLsb']
  exact BitVec.extractLsb'_eq_self

/-- Decoding a word's bytes is decoding the word, with the rest of the stream beside the operation. -/
theorem decodeBytes_bytesOfWord (w : Word) (rest : List Byte) :
    decodeBytes (bytesOfWord w ++ rest) = (decode w).map (·, rest) := by
  have hbytes : bytesOfWord w = [w.extractLsb' 0 8, w.extractLsb' 8 8, w.extractLsb' 16 8,
      w.extractLsb' 24 8, w.extractLsb' 32 8, w.extractLsb' 40 8, w.extractLsb' 48 8,
      w.extractLsb' 56 8] := rfl
  rw [hbytes]
  simp only [List.cons_append, List.nil_append, decodeBytes, wordOfBytes_extract]
  cases decode w <;> rfl

/-- Settles O6: the bytes are `bytesLE` of the word, and they decode as the word does. -/
theorem wordBytesAreLittleEndian : Obligations.WordBytesAreLittleEndian := by
  refine ⟨fun w k hk => bytesLE_getElem w 8 k hk, fun w i rest hdec => ?_, fun w e rest hdec => ?_⟩
  · rw [decodeBytes_bytesOfWord, hdec]
    rfl
  · rw [decodeBytes_bytesOfWord, hdec]
    rfl

end Sys2Proof

namespace Sys2Proof.Machine

/-! ## A step on a word (R67, R174) -/

/-- Settles O8: the word is taken off the port, decoded, and its operation run. -/
theorem stepRunsTheDecodedOperation : Obligations.StepRunsTheDecodedOperation := by
  intro s w rest i hin hdec
  simp [step, hin, servePort, serveWord, hdec]

/-! ## What the operations leave unchanged (R42, R122) -/

/-- A take that finds no complete frame leaves the registers. -/
theorem takeFrame_keeps_dec (rom : Memory) (d : Decoder) (h : d.bits.toNat ≠ 32) :
    (takeFrame rom d).1 = d := by
  rcases takeFrame_cases rom d with ⟨hfull, -⟩ | ⟨-, -, ht⟩ | ⟨-, -, ht⟩
  · exact absurd hfull h
  · rw [ht]
  · rw [ht]

/-- NOP and MAP complete on the registers they find, and TAKE does when it has no frame to consume. -/
theorem exec_keeps_dec (i : Instr) (s t : State) (h : exec i s = .next t)
    (hop : i.op = .nop ∨ i.op = .map ∨ (i.op = .take ∧ s.dec.bits.toNat ≠ 32)) :
    t.dec = s.dec := by
  cases i with
  | nop | map =>
    cases h
    rfl
  | take =>
    cases h
    exact takeFrame_keeps_dec s.rom s.dec (by simpa [Instr.op] using hop)
  | feedCap | feedW | stepCap | stepW | clear => simp [Instr.op] at hop

/-- Settles O42: the ROM and the inputs are as they were, and so are the registers where no operation
that changes them has anything to do. -/
theorem operationsKeepTheirFrame : Obligations.OperationsKeepTheirFrame := by
  intro i s t h
  obtain ⟨hrom, hinputs⟩ := exec_keeps_rom_and_inputs i s t h
  refine ⟨hinputs, fun c => by rw [hrom], fun hop => ?_⟩
  rw [exec_keeps_dec i s t h hop]
  exact ⟨rfl, rfl, rfl⟩

/-! ## How far the ROM's contents reach (R41, R140) -/

/-- The responses `r` and `q` that one operation gives over the ROMs `m` and `n`: equal but for
`out_byte`, which is each ROM's entry of the command on the response, or 0 in both. -/
structure Response.DiffersByEntry (m n : Memory) (r q : Response) : Prop where
  others : { q with outByte := r.outByte } = r
  entries : (r.outByte = m.read r.cmd ∧ q.outByte = n.read r.cmd) ∨ (r.outByte = 0 ∧ q.outByte = 0)

namespace Response.DiffersByEntry

variable {m n : Memory} {r q : Response}

theorem of_outByte_zero (h : r.outByte = 0) : r.DiffersByEntry m n r := ⟨rfl, .inr ⟨h, h⟩⟩

theorem withWidth (w : Width) (h : r.DiffersByEntry m n q) :
    ({ r with width := w } : Response).DiffersByEntry m n { q with width := w } :=
  ⟨congrArg (fun x : Response => { x with width := w }) h.others, h.entries⟩

theorem withStatus (d : Decoder) (h : r.DiffersByEntry m n q) :
    (r.withStatus d).DiffersByEntry m n (q.withStatus d) :=
  ⟨congrArg (·.withStatus d) h.others, h.entries⟩

end Response.DiffersByEntry

/-- The response to a frame reads one entry, that of the frame's command, and only if it is valid. -/
theorem frameResponse_differsByEntry (m n : Memory) (f : DecodedFrame) :
    (frameResponse m f).DiffersByEntry m n (frameResponse n f) := by
  unfold frameResponse
  split
  · exact ⟨rfl, .inl ⟨rfl, rfl⟩⟩
  · exact .of_outByte_zero rfl

/-- A take leaves the same registers over any ROM, and its response differs by the entry it reads. -/
theorem takeFrame_differsByEntry (m n : Memory) (d : Decoder) :
    (takeFrame n d).1 = (takeFrame m d).1 ∧
      (takeFrame m d).2.DiffersByEntry m n (takeFrame n d).2 := by
  unfold takeFrame
  split
  · exact ⟨rfl, frameResponse_differsByEntry m n _⟩
  · split
    · exact ⟨rfl, .of_outByte_zero rfl⟩
    · exact ⟨rfl, .of_outByte_zero rfl⟩

/-- Every operation completes the same registers over any ROM, and a response that differs by the entry
it reads. -/
theorem exec_differsByEntry (i : Instr) (s : State) (rom : Memory) :
    ∃ d e r q, exec i s = .next (complete s d r) ∧
      exec i { s with rom := rom } = .next (complete { s with rom := rom } e q) ∧
      e = d ∧ r.DiffersByEntry s.rom rom q := by
  have htake (d : Decoder) := takeFrame_differsByEntry s.rom rom d
  cases i with
  | nop | feedCap | feedW | clear => exact ⟨_, _, _, _, rfl, rfl, rfl, .of_outByte_zero rfl⟩
  | take =>
    obtain ⟨hdec, hresp⟩ := htake s.dec
    exact ⟨_, _, _, _, rfl, rfl, hdec, hresp⟩
  | stepCap pol time1 time2 =>
    obtain ⟨hdec, hresp⟩ := htake (feed (captureWidth time1 time2) s.dec)
    exact ⟨_, _, _, _, rfl, rfl, hdec, hresp.withWidth _⟩
  | stepW w =>
    obtain ⟨hdec, hresp⟩ := htake (feed w s.dec)
    exact ⟨_, _, _, _, rfl, rfl, hdec, hresp.withWidth _⟩
  | map => exact ⟨_, _, _, _, rfl, rfl, rfl, rfl, .inl ⟨rfl, rfl⟩⟩

/-- Settles O45: the end of an operation adds the same status outputs to both responses. -/
theorem romReachesOnlyOutByte : Obligations.RomReachesOnlyOutByte := by
  intro i s rom
  obtain ⟨d, e, r, q, ht, hu, rfl, hresp⟩ := exec_differsByEntry i s rom
  obtain ⟨hothers, hentries⟩ := hresp.withStatus e
  exact ⟨_, _, ht, hu, rfl, hothers, hentries⟩

end Sys2Proof.Machine
end

section
/-! SUPPORT. Encoding (30_encoding.md): a word and its fields, the round trip of decoder and encoder, the
opcode table with the words it rejects, and the assembler. -/

namespace Sys2Proof

/-! ## A word is its fields (R60) -/

theorem word_toNat_eq_fields (w : Word) :
    w.toNat = (opField w).toNat + 8 * (polField w).toNat + 16 * (rsvField w).toNat +
      2 ^ 32 * (widthField w).toNat := by
  rw [opField_toNat, polField_toNat, rsvField_toNat, widthField_toNat]
  omega

theorem word_eq_iff_fields (v w : Word) :
    v = w ↔ opField v = opField w ∧ polField v = polField w ∧ rsvField v = rsvField w ∧
      widthField v = widthField w := by
  constructor
  · rintro rfl
    exact ⟨rfl, rfl, rfl, rfl⟩
  · rintro ⟨hop, hpol, hrsv, hwidth⟩
    apply BitVec.eq_of_toNat_eq
    rw [word_toNat_eq_fields v, word_toNat_eq_fields w, hop, hpol, hrsv, hwidth]

/-- The operand of a capture operation is its two timestamps (R62). -/
theorem time2Field_append_time1Field (w : Word) : time2Field w ++ time1Field w = widthField w :=
  BitVec.extractLsb'_append_extractLsb'_eq_extractLsb' rfl

/-- The operand of MAP is its command, with the reserved bits above it (R64). -/
theorem rsvHiField_append_cmdField (w : Word) : rsvHiField w ++ cmdField w = widthField w :=
  BitVec.extractLsb'_append_extractLsb'_eq_extractLsb' rfl

theorem operand_map (cmd : Byte) : (Instr.map cmd).operand = (0 : BitVec 24) ++ cmd :=
  BitVec.setWidth_eq_append (by decide)

theorem append_eq_append_iff {m n : Nat} (a c : BitVec m) (b d : BitVec n) :
    a ++ b = c ++ d ↔ a = c ∧ b = d := by
  constructor
  · intro h
    have hhigh := congrArg (·.extractLsb' n m) h
    have hlow := congrArg (·.extractLsb' 0 n) h
    simp only [BitVec.extractLsb'_append_eq_left] at hhigh
    simp only [BitVec.extractLsb'_append_eq_right] at hlow
    exact ⟨hhigh, hlow⟩
  · rintro ⟨rfl, rfl⟩
    rfl

/-! ## The word of an operation decodes to it (R67, R71) -/

section
variable (i : Instr)

@[simp] theorem opField_encode : opField (encode i) = i.op.code := by
  have hop := i.op.code.isLt
  rw [← BitVec.toNat_inj, opField_toNat, encode_toNat]
  omega

@[simp] theorem polField_encode : polField (encode i) = i.polBit := by
  have hop := i.op.code.isLt
  have hpol := i.polBit.isLt
  rw [← BitVec.toNat_inj, polField_toNat, encode_toNat]
  omega

@[simp] theorem rsvField_encode : rsvField (encode i) = 0 := by
  have hop := i.op.code.isLt
  have hpol := i.polBit.isLt
  rw [← BitVec.toNat_inj, rsvField_toNat, encode_toNat]
  change _ = 0
  omega

@[simp] theorem widthField_encode : widthField (encode i) = i.operand := by
  have hop := i.op.code.isLt
  have hpol := i.polBit.isLt
  rw [← BitVec.toNat_inj, widthField_toNat, encode_toNat]
  omega

end

theorem polBit_eq_zero (i : Instr) (h : i.op.usesPolarity = false) : i.polBit = 0 := by
  cases i with
  | nop | feedW | take | stepW | map | clear => rfl
  | feedCap | stepCap => cases h

theorem operand_eq_zero (i : Instr) (h : i.op.noOperand = true) : i.operand = 0 := by
  cases i with
  | nop | take | clear => rfl
  | feedCap | feedW | stepCap | stepW | map => cases h

theorem mapFields_encode (cmd : Byte) :
    rsvHiField (encode (.map cmd)) = 0 ∧ cmdField (encode (.map cmd)) = cmd := by
  rw [← append_eq_append_iff, rsvHiField_append_cmdField, widthField_encode, operand_map]

theorem timeFields_of_operand (i : Instr) (t1 t2 : Timestamp) (h : i.operand = t2 ++ t1) :
    time2Field (encode i) = t2 ∧ time1Field (encode i) = t1 := by
  rw [← append_eq_append_iff, time2Field_append_time1Field, widthField_encode, h]

/-- Every operand is where the decoder looks for it. -/
theorem instrOfFields_encode (i : Instr) : instrOfFields i.op (encode i) = i := by
  cases i with
  | nop | take | clear => rfl
  | feedW | stepW => simp [instrOfFields, Instr.op, Instr.operand]
  | feedCap pol t1 t2 =>
    simp [instrOfFields, Instr.op, Instr.polBit, timeFields_of_operand (.feedCap pol t1 t2) t1 t2 rfl]
  | stepCap pol t1 t2 =>
    simp [instrOfFields, Instr.op, Instr.polBit, timeFields_of_operand (.stepCap pol t1 t2) t1 t2 rfl]
  | map cmd => simp [instrOfFields, Instr.op, mapFields_encode]

theorem decode_encode (i : Instr) : decode (encode i) = .ok i := by
  rw [decode_of_fields]
  · rw [opField_encode, opOfCode_code, instrOfFields_encode]
  · exact rsvField_encode i
  · simpa using polBit_eq_zero i
  · simpa using operand_eq_zero i
  · intro h
    cases i with
    | map cmd => exact (mapFields_encode cmd).1
    | nop | feedCap | feedW | take | stepCap | stepW | clear => cases (opField_encode _ ▸ h)

/-- The fields of an operation have the widths of the ranges of R71. -/
theorem instr_wellFormed (i : Instr) : i.wellFormed = true := by
  cases i with
  | nop | take | clear => rfl
  | feedCap _ t1 t2 | stepCap _ t1 t2 =>
    exact (Bool.and_eq_true _ _).mpr ⟨decide_eq_true t1.isLt, decide_eq_true t2.isLt⟩
  | feedW width | stepW width => exact decide_eq_true width.isLt
  | map cmd => exact decide_eq_true cmd.isLt

/-- Settles O2: the encoder puts every field where the decoder reads it, and 0 in the reserved ones. -/
theorem decodeOfEncodeIsTheInstruction : Obligations.DecodeOfEncodeIsTheInstruction :=
  fun i => ⟨instr_wellFormed i, decode_encode i⟩

/-! ## A word that decodes is the word of its operation -/

theorem polBit_instrOfFields (op : Op) (w : Word) (h : op.usesPolarity = false → polField w = 0) :
    (instrOfFields op w).polBit = polField w := by
  cases op with
  | nop | feedW | take | stepW | map | clear => exact (h rfl).symm
  | feedCap | stepCap => exact bitOfPolarity_polarityOfBit _

theorem operand_instrOfFields (op : Op) (w : Word) (hnone : op.noOperand = true → widthField w = 0)
    (hmap : op = .map → rsvHiField w = 0) : (instrOfFields op w).operand = widthField w := by
  cases op with
  | nop | take | clear => exact (hnone rfl).symm
  | feedCap | stepCap => exact time2Field_append_time1Field w
  | feedW | stepW => rfl
  | map =>
    rw [← rsvHiField_append_cmdField, hmap rfl]
    exact operand_map _

theorem encode_of_decode (w : Word) (i : Instr) (h : decode w = .ok i) : encode i = w := by
  obtain ⟨rfl, hrsv, hpol, hnone, hmap⟩ := decode_ok_cases w i h
  rw [word_eq_iff_fields, opField_encode, polField_encode, rsvField_encode, widthField_encode]
  exact ⟨by simp, polBit_instrOfFields _ w hpol, hrsv.symm, operand_instrOfFields _ w hnone hmap⟩

/-- Settles O3: the reserved fields of a word that decodes are 0, and its other fields are those of the
instruction. -/
theorem encodeOfDecodeIsTheWord : Obligations.EncodeOfDecodeIsTheWord := encode_of_decode

/-! ## The opcode table (R67, R68) -/

section
variable (v w : Word)

theorem opField_and : opField (v &&& w) = opField v &&& opField w := BitVec.extractLsb'_and

theorem polField_and : polField (v &&& w) = polField v &&& polField w := BitVec.extractLsb'_and

theorem rsvField_and : rsvField (v &&& w) = rsvField v &&& rsvField w := BitVec.extractLsb'_and

theorem widthField_and : widthField (v &&& w) = widthField v &&& widthField w :=
  BitVec.extractLsb'_and

end

/-- What R67 asks of the fields of a word for it to be a word of an operation. -/
structure FieldsOf (op : Op) (w : Word) : Prop where
  code : opField w = op.code
  reserved : rsvField w = 0
  polarity : op.usesPolarity = false → polField w = 0
  operand : op.noOperand = true → widthField w = 0
  mapHigh : op = .map → rsvHiField w = 0

theorem decode_eq_ok_iff_fieldsOf (op : Op) (w : Word) :
    decode w = .ok (instrOfFields op w) ↔ FieldsOf op w := by
  constructor
  · intro h
    obtain ⟨hi, hrsv, hpol, hnone, hmap⟩ := decode_ok_cases w _ h
    have hop := congrArg Instr.op hi
    rw [instrOfFields_op, instrOfFields_op] at hop
    subst hop
    exact ⟨(code_opOfCode _).symm, hrsv, hpol, hnone, hmap⟩
  · rintro ⟨hcode, hrsv, hpol, hnone, hmap⟩
    obtain rfl : opOfCode (opField w) = op := by rw [hcode, opOfCode_code]
    exact decode_of_fields w hrsv hpol hnone hmap

theorem exists_decode_eq_ok_iff (w : Word) :
    (∃ i, decode w = .ok i) ↔ FieldsOf (opOfCode (opField w)) w := by
  rw [← decode_eq_ok_iff_fieldsOf]
  constructor
  · rintro ⟨i, h⟩
    obtain ⟨rfl, -⟩ := decode_ok_cases w i h
    exact h
  · exact fun h => ⟨_, h⟩

/-- What a row checks of the operand: all of it, the part above the command, or nothing. -/
def Op.operandMask : Op → BitVec 32
  | .nop | .take | .clear => BitVec.allOnes 32
  | .map => BitVec.allOnes 24 ++ (0 : BitVec 8)
  | .feedCap | .feedW | .stepCap | .stepW => 0

theorem and_operandMask_eq_zero_iff (op : Op) (w : Word) :
    widthField w &&& op.operandMask = 0 ↔
      (op.noOperand = true → widthField w = 0) ∧ (op = .map → rsvHiField w = 0) := by
  cases op with
  | nop | take | clear | feedCap | feedW | stepCap | stepW =>
    simp [Op.operandMask, Op.noOperand, -BitVec.reduceAllOnes]
  | map =>
    have hzero : (0 : BitVec 32) = (0 : BitVec 24) ++ (0 : BitVec 8) := rfl
    rw [Op.operandMask, ← rsvHiField_append_cmdField, BitVec.and_append, hzero, append_eq_append_iff]
    simp [Op.noOperand, -BitVec.reduceAllOnes]

/-- What a row checks of the polarity bit: nothing where the operation uses it. -/
def Op.polMask (op : Op) : BitVec 1 := if op.usesPolarity then 0 else BitVec.allOnes 1

theorem and_polMask_eq_zero_iff (op : Op) (w : Word) :
    polField w &&& op.polMask = 0 ↔ (op.usesPolarity = false → polField w = 0) := by
  unfold Op.polMask
  cases op.usesPolarity <;> simp [-BitVec.reduceAllOnes]

/-- The match and mask values of a row, field by field. -/
abbrev TableRow.HasFields (r : TableRow) : Prop :=
  (opField r.maskBits = BitVec.allOnes 3 ∧ opField r.matchBits = r.op.code) ∧
  (polField r.maskBits = r.op.polMask ∧ polField r.matchBits = 0) ∧
  (rsvField r.maskBits = BitVec.allOnes 28 ∧ rsvField r.matchBits = 0) ∧
  (widthField r.maskBits = r.op.operandMask ∧ widthField r.matchBits = 0)

theorem hasFields_of_mem : ∀ r ∈ opcodeTable, r.HasFields := by decide

/-- A row compares the word's fields one by one. -/
theorem matches_iff_fieldsOf (r : TableRow) (h : r ∈ opcodeTable) (w : Word) :
    r.matches w = true ↔ FieldsOf r.op w := by
  obtain ⟨⟨hop, hcode⟩, ⟨hpol, hpol0⟩, ⟨hrsv, hrsv0⟩, hwidth, hwidth0⟩ := hasFields_of_mem r h
  have fields : r.matches w = true ↔ opField w = r.op.code ∧ polField w &&& r.op.polMask = 0 ∧
      rsvField w = 0 ∧ widthField w &&& r.op.operandMask = 0 := by
    rw [TableRow.matches, beq_iff_eq, word_eq_iff_fields, opField_and, polField_and, rsvField_and,
      widthField_and, hop, hcode, hpol, hpol0, hrsv, hrsv0, hwidth, hwidth0, BitVec.and_allOnes,
      BitVec.and_allOnes]
  rw [fields, and_polMask_eq_zero_iff, and_operandMask_eq_zero_iff]
  constructor
  · rintro ⟨hop, hpol, hrsv, hnone, hmap⟩
    exact ⟨hop, hrsv, hpol, hnone, hmap⟩
  · rintro ⟨hop, hrsv, hpol, hnone, hmap⟩
    exact ⟨hop, hpol, hrsv, hnone, hmap⟩

theorem matches_iff_decode (r : TableRow) (h : r ∈ opcodeTable) (w : Word) :
    r.matches w = true ↔ decode w = .ok (instrOfFields r.op w) := by
  rw [matches_iff_fieldsOf r h, decode_eq_ok_iff_fieldsOf]

theorem getLsbD_three (w : Word) : w.getLsbD 3 = (polField w == 1) :=
  BitVec.getLsbD_eq_extractLsb' w 3

theorem polarityOfBit_polField (w : Word) :
    polarityOfBit (polField w) = if w.getLsbD 3 then .falling else .rising := by
  rw [getLsbD_three]
  generalize polField w = b
  decide +revert

theorem time1Field_eq_ofNat (w : Word) : time1Field w = BitVec.ofNat 16 (w.toNat / 2 ^ 32) := by
  rw [← BitVec.toNat_inj, time1Field_toNat, BitVec.toNat_ofNat]

theorem time2Field_eq_ofNat (w : Word) : time2Field w = BitVec.ofNat 16 (w.toNat / 2 ^ 48) := by
  rw [← BitVec.toNat_inj, time2Field_toNat, BitVec.toNat_ofNat]
  omega

theorem widthField_eq_ofNat (w : Word) : widthField w = BitVec.ofNat 32 (w.toNat / 2 ^ 32) := by
  rw [← BitVec.toNat_inj, widthField_toNat, BitVec.toNat_ofNat]
  omega

theorem cmdField_eq_ofNat (w : Word) : cmdField w = BitVec.ofNat 8 (w.toNat / 2 ^ 32) := by
  rw [← BitVec.toNat_inj, cmdField_toNat, BitVec.toNat_ofNat]

/-- Settles O4: each row matches exactly the words that decode to its operation with the word's fields,
and the fields are the given quotients of the word. -/
theorem tableRowsDecodeToTheirOperations : Obligations.TableRowsDecodeToTheirOperations := by
  intro w
  have row (r : TableRow) (h : r ∈ opcodeTable) :
      w &&& r.maskBits = r.matchBits ↔ decode w = .ok (instrOfFields r.op w) := by
    rw [← matches_iff_decode r h, TableRow.matches, beq_iff_eq]
  rw [← polarityOfBit_polField, ← time1Field_eq_ofNat, ← time2Field_eq_ofNat, ← widthField_eq_ofNat,
    ← cmdField_eq_ofNat]
  exact ⟨row ⟨.nop, _, _⟩ (by decide), row ⟨.feedCap, _, _⟩ (by decide),
    row ⟨.feedW, _, _⟩ (by decide), row ⟨.take, _, _⟩ (by decide),
    row ⟨.stepCap, _, _⟩ (by decide), row ⟨.stepW, _, _⟩ (by decide),
    row ⟨.map, _, _⟩ (by decide), row ⟨.clear, _, _⟩ (by decide)⟩

/-! ## Which words are rejected (R67, R69) -/

theorem exists_decode_eq_error_iff (w : Word) :
    (∃ e, decode w = .error e) ↔ ¬ ∃ i, decode w = .ok i := by
  cases decode w <;> simp

theorem usesPolarity_opOfCode_iff (c : BitVec 3) :
    (opOfCode c).usesPolarity = false ↔ c.toNat ≠ 1 ∧ c.toNat ≠ 4 := by decide +revert

theorem noOperand_opOfCode_iff (c : BitVec 3) :
    (opOfCode c).noOperand = true ↔ c.toNat = 0 ∨ c.toNat = 3 ∨ c.toNat = 7 := by decide +revert

theorem opOfCode_eq_map_iff (c : BitVec 3) : opOfCode c = .map ↔ c.toNat = 6 := by decide +revert

theorem polField_eq_zero_iff (w : Word) : polField w = 0 ↔ w.getLsbD 3 = false := by
  rw [getLsbD_three]
  generalize polField w = b
  decide +revert

theorem eq_zero_iff_toNat {n : Nat} (x : BitVec n) : x = 0 ↔ x.toNat = 0 := by
  simp [← BitVec.toNat_inj]

/-- The conditions of R67 on a word, as numbers. -/
theorem exists_decode_eq_ok_iff_toNat (w : Word) :
    (∃ i, decode w = .ok i) ↔
      w.toNat / 2 ^ 4 % 2 ^ 28 = 0 ∧
      (w.toNat % 8 ≠ 1 ∧ w.toNat % 8 ≠ 4 → w.getLsbD 3 = false) ∧
      (w.toNat % 8 = 0 ∨ w.toNat % 8 = 3 ∨ w.toNat % 8 = 7 → w.toNat / 2 ^ 32 = 0) ∧
      (w.toNat % 8 = 6 → w.toNat / 2 ^ 40 = 0) := by
  rw [exists_decode_eq_ok_iff]
  simp only [← opField_toNat, ← usesPolarity_opOfCode_iff, ← noOperand_opOfCode_iff,
    ← opOfCode_eq_map_iff]
  simp only [← rsvField_toNat, ← widthField_toNat, ← rsvHiField_toNat, ← eq_zero_iff_toNat,
    ← polField_eq_zero_iff]
  constructor
  · rintro ⟨-, hrsv, hpol, hnone, hmap⟩
    exact ⟨hrsv, hpol, hnone, hmap⟩
  · rintro ⟨hrsv, hpol, hnone, hmap⟩
    exact ⟨(code_opOfCode _).symm, hrsv, hpol, hnone, hmap⟩

theorem exists_row_of_op (op : Op) : ∃ r ∈ opcodeTable, r.op = op := by
  cases op <;> decide

theorem opcodeTable_op_inj : ∀ r ∈ opcodeTable, ∀ q ∈ opcodeTable, r.op = q.op → r = q := by decide

theorem exists_decode_eq_ok_iff_matches (w : Word) :
    (∃ i, decode w = .ok i) ↔ ∃ r ∈ opcodeTable, r.matches w = true := by
  constructor
  · intro h
    obtain ⟨r, hr, hop⟩ := exists_row_of_op (opOfCode (opField w))
    exact ⟨r, hr, (matches_iff_fieldsOf r hr w).2 (hop ▸ (exists_decode_eq_ok_iff w).1 h)⟩
  · rintro ⟨r, hr, hmatch⟩
    exact ⟨_, (matches_iff_decode r hr w).1 hmatch⟩

/-- Settles O5: a word is rejected when a condition of R67 fails, and the rows match by their operation
code, which no two share. -/
theorem reservedBitsDecideLegality : Obligations.ReservedBitsDecideLegality := by
  refine fun w => ⟨?_, exists_decode_eq_ok_iff_matches w, fun r hr q hq hrw hqw => ?_⟩
  · rw [exists_decode_eq_error_iff, exists_decode_eq_ok_iff_toNat]
    simp only [not_and_or, Classical.not_imp, Bool.not_eq_false, and_assoc]
  · obtain ⟨hr', -⟩ := (matches_iff_fieldsOf r hr w).1 hrw
    obtain ⟨hq', -⟩ := (matches_iff_fieldsOf q hq w).1 hqw
    refine opcodeTable_op_inj r hr q hq ?_
    rw [← opOfCode_code r.op, ← hr', hq', opOfCode_code]

/-! ## The assembler (R71) -/

theorem encode_eq_ofNat (i : Instr) : encode i =
    BitVec.ofNat 64 (i.op.code.toNat + 8 * i.polBit.toNat + i.operand.toNat * 2 ^ 32) := by
  rw [← encode_toNat, BitVec.ofNat_toNat, BitVec.setWidth_eq]

theorem bitOfPolarity_toNat (pol : Polarity) :
    (bitOfPolarity pol).toNat = if pol = .falling then 1 else 0 := by
  cases pol <;> rfl

theorem toNat_append_time (t1 t2 : Timestamp) : (t2 ++ t1).toNat = t1.toNat + 65536 * t2.toNat := by
  rw [BitVec.toNat_append, ← Nat.shiftLeft_add_eq_or_of_lt t1.isLt, Nat.shiftLeft_eq]
  omega

theorem captureOperand_toNat (t1 t2 : Nat) (h1 : t1 < 65536) (h2 : t2 < 65536) :
    (BitVec.ofNat 16 t2 ++ BitVec.ofNat 16 t1).toNat = t1 + 65536 * t2 := by
  rw [toNat_append_time, BitVec.toNat_ofNat, BitVec.toNat_ofNat, Nat.mod_eq_of_lt h1,
    Nat.mod_eq_of_lt h2]

end Sys2Proof

namespace Sys2Proof.Machine

/-- The one word of a line that writes one operation: the fields it places, as a sum (R71). -/
theorem assemble_of_ops (l : AsmLine) (i : Instr) (x : Nat) (h : l.wellFormed = true)
    (hops : AsmLine.ops l = [i]) (hx : i.operand.toNat = x) : assemble l =
      some [BitVec.ofNat 64 (i.op.code.toNat + 8 * i.polBit.toNat + x * 2 ^ 32)] := by
  rw [assemble, if_pos h, hops, ← hx, ← encode_eq_ofNat]
  rfl

theorem assemble_of_not_wellFormed (l : AsmLine) (h : l.wellFormed = false) : assemble l = none :=
  if_neg (by simp [h])

theorem assemble_capture (t1 t2 : Nat) (pol : Polarity) (h1 : t1 < 65536) (h2 : t2 < 65536) :
    assemble (.feedCap t1 t2 pol) =
      some [BitVec.ofNat 64 (1 + 8 * (if pol = .falling then 1 else 0) + (t1 + 65536 * t2) * 2 ^ 32)] ∧
    assemble (.stepCap t1 t2 pol) =
      some [BitVec.ofNat 64 (4 + 8 * (if pol = .falling then 1 else 0) + (t1 + 65536 * t2) * 2 ^ 32)] := by
  have hwf : (decide (t1 < 2 ^ 16) && decide (t2 < 2 ^ 16)) = true := by simp [h1, h2]
  have hx := captureOperand_toNat t1 t2 h1 h2
  rw [← bitOfPolarity_toNat]
  exact ⟨assemble_of_ops (.feedCap t1 t2 pol) (.feedCap pol _ _) _ hwf rfl hx,
    assemble_of_ops (.stepCap t1 t2 pol) (.stepCap pol _ _) _ hwf rfl hx⟩

theorem assemble_capture_out_of_range (t1 t2 : Nat) (pol : Polarity)
    (h : 65536 ≤ t1 ∨ 65536 ≤ t2) :
    assemble (.feedCap t1 t2 pol) = none ∧ assemble (.stepCap t1 t2 pol) = none := by
  have hwf : (decide (t1 < 2 ^ 16) && decide (t2 < 2 ^ 16)) = false := by
    rw [Bool.and_eq_false_iff, decide_eq_false_iff_not, decide_eq_false_iff_not]
    omega
  exact ⟨assemble_of_not_wellFormed (.feedCap t1 t2 pol) hwf,
    assemble_of_not_wellFormed (.stepCap t1 t2 pol) hwf⟩

theorem assemble_width (n : Nat) (h : n < 4294967296) :
    assemble (.feedW n) = some [BitVec.ofNat 64 (2 + n * 2 ^ 32)] ∧
    assemble (.stepW n) = some [BitVec.ofNat 64 (5 + n * 2 ^ 32)] := by
  have hwf : decide (n < 2 ^ 32) = true := decide_eq_true h
  have hx : (BitVec.ofNat 32 n).toNat = n := (BitVec.toNat_ofNat n 32).trans (Nat.mod_eq_of_lt h)
  exact ⟨assemble_of_ops (.feedW n) (.feedW _) n hwf rfl hx,
    assemble_of_ops (.stepW n) (.stepW _) n hwf rfl hx⟩

theorem assemble_map (n : Nat) (h : n < 256) :
    assemble (.map n) = some [BitVec.ofNat 64 (6 + n * 2 ^ 32)] := by
  have hx : ((BitVec.ofNat 8 n).setWidth 32).toNat = n := by
    rw [BitVec.toNat_setWidth, BitVec.toNat_ofNat]
    omega
  exact assemble_of_ops (.map n) (.map _) n (decide_eq_true h) rfl hx

/-- Settles O7: a line in range is the word of its one operation, whose fields add up, and a line out of
range is not well formed. -/
theorem assemblerChecksRangesAndPlacesFields :
    Obligations.AssemblerChecksRangesAndPlacesFields := by
  refine ⟨assemble_capture, assemble_capture_out_of_range, assemble_width, fun n h => ?_,
    assemble_map, fun n h => ?_, by decide, by decide, by decide⟩
  · have hwf := decide_eq_false (Nat.not_lt.2 h)
    exact ⟨assemble_of_not_wellFormed (.feedW n) hwf, assemble_of_not_wellFormed (.stepW n) hwf⟩
  · exact assemble_of_not_wellFormed (.map n) (decide_eq_false (Nat.not_lt.2 h))

/-- Settles O1: the lines and the encoder are evaluated, and the decoder inverts the encoder. -/
theorem exampleWordsAssembleDecodeAndEncode : Obligations.ExampleWordsAssembleDecodeAndEncode := by
  refine ⟨fun e he => ?_, by decide⟩
  have hword : assembleText e.1 = .ok [e.2.1] ∧ encode e.2.2 = e.2.1 := by
    revert e he
    decide
  obtain ⟨htext, hencode⟩ := hword
  exact ⟨htext, hencode ▸ decode_encode e.2.2, hencode⟩

end Sys2Proof.Machine
end

section
/-! SUPPORT. The 66 steps of FRAME and NECFRAME (30_encoding.md R72, 44_sequencing.md R151): the steps are
the feeds of a list of widths. The feeds before the last stay in the middle of a frame, so that each step
answers PENDING, and the last completes the frame word, which its step takes. -/

namespace Sys2Proof.Machine

/-! ## Steps in the middle of a frame answer PENDING (R122, R151) -/

/-- A frame has begun and is not complete: what a take answers PENDING to (R122). -/
abbrev Decoder.MidFrame (d : Decoder) : Prop := d.st ≠ .reset ∧ d.bits.toNat ≠ 32

/-- Every feed of the widths leaves a frame begun and not complete. -/
def FeedsStayMidFrame : List Width → Decoder → Prop
  | [], _ => True
  | w :: ws, d => (feed w d).MidFrame ∧ FeedsStayMidFrame ws (feed w d)

theorem FeedsStayMidFrame.append : ∀ (ws vs : List Width) (d : Decoder), FeedsStayMidFrame ws d →
    FeedsStayMidFrame vs (feedAll ws d) → FeedsStayMidFrame (ws ++ vs) d
  | [], _, _, _, hvs => hvs
  | _ :: ws, vs, _, ⟨hw, hws⟩, hvs => ⟨hw, append ws vs _ hws hvs⟩

theorem FeedsStayMidFrame.take : ∀ (n : Nat) (ws : List Width) (d : Decoder),
    FeedsStayMidFrame ws d → FeedsStayMidFrame (ws.take n) d
  | 0, _, _, _ => trivial
  | _ + 1, [], _, _ => trivial
  | n + 1, _ :: ws, _, ⟨hw, hws⟩ => ⟨hw, take n ws _ hws⟩

theorem feedAll_append (ws vs : List Width) (d : Decoder) :
    feedAll (ws ++ vs) d = feedAll vs (feedAll ws d) := List.foldl_append

theorem takeFrame_of_midFrame (rom : Memory) (d : Decoder) (h : d.MidFrame) :
    takeFrame rom d = (d, { Response.zero with kind := .pending }) := by
  obtain ⟨hst, hbits⟩ := h
  rcases takeFrame_cases rom d with ⟨hfull, -⟩ | ⟨-, hreset, -⟩ | ⟨-, -, ht⟩
  · exact absurd hfull hbits
  · exact absurd hreset hst
  · exact ht

theorem takeFrame_of_full (rom : Memory) (d : Decoder) (h : d.bits.toNat = 32) :
    takeFrame rom d = (Decoder.zero, frameResponse rom (splitFrame d.acc)) :=
  if_pos ((bits_eq_frame_iff d.bits).2 h)

theorem stepOp_of_midFrame (w : Width) (s : State) (h : (feed w s.dec).MidFrame) : stepOp w s =
    complete s (feed w s.dec) { Response.zero with kind := .pending, width := w } := by
  rw [stepOp, takeFrame_of_midFrame _ _ h]

theorem stepOp_of_full (w : Width) (s : State) (h : (feed w s.dec).bits.toNat = 32) : stepOp w s =
    complete s Decoder.zero
      { frameResponse s.rom (splitFrame (feed w s.dec).acc) with width := w } := by
  rw [stepOp, takeFrame_of_full _ _ h]

theorem exec_stepW (w : Width) (s : State) : exec (.stepW w) s = .next (stepOp w s) := rfl

theorem execAll_stepW_cons (w : Width) (ops : List Instr) (s : State) :
    execAll (.stepW w :: ops) s = execAll ops (stepOp w s) := rfl

theorem execAll_append_of_next : ∀ (ops more : List Instr) (s t : State),
    execAll ops s = .next t → execAll (ops ++ more) s = execAll more t
  | [], _, _, _, h => by
    cases h
    rfl
  | i :: ops, more, s, t, h => by
    simp only [List.cons_append, execAll] at h ⊢
    cases hi : exec i s with
    | next u =>
      rw [hi] at h
      exact execAll_append_of_next ops more u t h
    | fault r | refused r =>
      rw [hi] at h
      cases h

/-- A run of steps that stay mid-frame does the feeds, and each of them answers PENDING. -/
theorem execAll_stepW_of_midFrame : ∀ (ws : List Width) (s : State), FeedsStayMidFrame ws s.dec →
    ∃ t, execAll (ws.map .stepW) s = .next t ∧ t.dec = feedAll ws s.dec ∧ t.rom = s.rom ∧
      t.inputs = s.inputs ∧
      ((ws = [] ∧ t = s) ∨ (t.resp.kind = .pending ∧ t.resp.outValid = false))
  | [], s, _ => ⟨s, rfl, rfl, rfl, rfl, .inl ⟨rfl, rfl⟩⟩
  | w :: ws, s, ⟨hw, hws⟩ => by
    have hstep := stepOp_of_midFrame w s hw
    obtain ⟨t, hrun, hdec, hrom, hinputs, hresp⟩ :=
      execAll_stepW_of_midFrame ws (stepOp w s) (by rw [hstep]; exact hws)
    rw [hstep] at hdec hresp
    refine ⟨t, hrun, hdec, hrom, hinputs, .inr ?_⟩
    rcases hresp with ⟨-, rfl⟩ | hresp
    · exact ⟨rfl, rfl⟩
    · exact hresp

/-! ## The feeds of a frame (R72) -/

/-- The data space of a bit in FRAME. -/
def spaceWidth (b : Bool) : Width := if b then 1690 else 560

/-- The widths of a bit in FRAME: BIT0 or BIT1. -/
def cellWidths (b : Bool) : List Width := [560, spaceWidth b]

/-- The widths of FRAME. -/
def frameWidths (v : BitVec 32) : List Width := [9000, 4500] ++ (bitsDown v 32).flatMap cellWidths

theorem frameOps_eq_map (v : BitVec 32) : frameOps v = (frameWidths v).map .stepW := by
  have hcell : (fun b => if b then bit1Ops else bit0Ops) =
      fun b => (cellWidths b).map Instr.stepW := by
    funext b
    cases b <;> rfl
  rw [frameOps, frameWidths, List.map_append, List.map_flatMap, hcell]
  rfl

/-- All but the last width of FRAME. -/
def frameFront (v : BitVec 32) : List Width :=
  [9000, 4500] ++ ((bitsDown v 32).take 31).flatMap cellWidths ++ [560]

theorem bitsDown_succ_eq_take (v : BitVec 32) : ∀ n : Nat,
    bitsDown v (n + 1) = (bitsDown v (n + 1)).take n ++ [v.getLsbD 0]
  | 0 => rfl
  | n + 1 => congrArg (v.getLsbD (n + 1) :: ·) (bitsDown_succ_eq_take v n)

theorem frameWidths_eq_front (v : BitVec 32) :
    frameWidths v = frameFront v ++ [spaceWidth (v.getLsbD 0)] := by
  rw [frameWidths, bitsDown_succ_eq_take v 31, List.flatMap_append, frameFront]
  simp only [List.append_assoc]
  rfl

theorem frameFront_length (v : BitVec 32) : (frameFront v).length = 65 := rfl

/-- The registers before the last `n` bits of `v`: the phase awaits a bit mark, and the bits above those
are in the accumulator. -/
structure Receiving (v : BitVec 32) (n : Nat) (d : Decoder) : Prop where
  phase : d.st = .start2 ∨ d.st = .data0 ∨ d.st = .data1
  count : d.bits.toNat + n = 32
  acc : d.acc.toNat = v.toNat / 2 ^ n

theorem Receiving.midFrame {v : BitVec 32} {n : Nat} {d : Decoder} (h : Receiving v (n + 1) d) :
    d.MidFrame := by
  obtain ⟨hphase, hcount, -⟩ := h
  refine ⟨?_, by omega⟩
  rcases hphase with hst | hst | hst <;> simp [hst]

theorem feed_bitMark_of_receiving {v : BitVec 32} {n : Nat} {d : Decoder} (h : Receiving v n d) :
    feed 560 d = { d with st := .pulseMarker } := by
  have hmark : isBitMark 560 = true := by decide
  rcases h.phase with hst | hst | hst <;> simp only [feed, hst, hmark, if_true]

theorem feed_space_of_pulseMarker (b : Bool) (d : Decoder) (h : d.st = .pulseMarker) :
    feed (spaceWidth b) d = shiftIn b (if b then .data1 else .data0) d := by
  cases b <;> simp only [feed, h] <;> rfl

/-- The next bit takes its place in the accumulator. -/
theorem append_next_bit (v : BitVec 32) (n : Nat) :
    (2 * (v.toNat / 2 ^ (n + 1)) + (v.getLsbD n).toNat) % 2 ^ 32 = v.toNat / 2 ^ n := by
  have hle := Nat.div_le_self v.toNat (2 ^ n)
  have hv := v.isLt
  rw [getLsbD_toNat, Nat.pow_succ, ← Nat.div_div_eq_div_mul]
  omega

theorem receiving_shiftIn {v : BitVec 32} {n : Nat} {d : Decoder} (h : Receiving v (n + 1) d) :
    Receiving v n (feed (spaceWidth (v.getLsbD n)) (feed 560 d)) := by
  rw [feed_bitMark_of_receiving h, feed_space_of_pulseMarker _ _ rfl]
  obtain ⟨-, hcount, hacc⟩ := h
  have hcases := shiftIn_cases (v.getLsbD n) (if v.getLsbD n then .data1 else .data0)
    { d with st := .pulseMarker }
  rcases hcases with ⟨-, hst, hbits, hval, -⟩ | ⟨hover, -⟩
  · refine ⟨?_, by simp only at hbits; omega, by rw [hval, hacc, append_next_bit]⟩
    rw [hst]
    cases v.getLsbD n <;> simp
  · simp only at hover
    omega

theorem bitMark_midFrame_of_receiving {v : BitVec 32} {n : Nat} {d : Decoder}
    (h : Receiving v (n + 1) d) : (feed 560 d).MidFrame := by
  rw [feed_bitMark_of_receiving h]
  exact ⟨nofun, h.midFrame.2⟩

/-- While bits are outstanding, the cells of the next ones leave a frame in the middle. -/
theorem feed_cells_of_receiving (v : BitVec 32) : ∀ (k n : Nat) (d : Decoder),
    Receiving v (k + (n + 1)) d →
    FeedsStayMidFrame (((bitsDown v (k + (n + 1))).take k).flatMap cellWidths) d ∧
      Receiving v (n + 1) (feedAll (((bitsDown v (k + (n + 1))).take k).flatMap cellWidths) d)
  | 0, n, d, h => by
    rw [Nat.zero_add] at h
    exact ⟨trivial, h⟩
  | k + 1, n, d, h => by
    rw [Nat.add_right_comm] at h ⊢
    have hnext := receiving_shiftIn h
    obtain ⟨hrest, hend⟩ := feed_cells_of_receiving v k n _ hnext
    exact ⟨⟨bitMark_midFrame_of_receiving h, hnext.midFrame, hrest⟩, hend⟩

theorem receiving_of_leader (v : BitVec 32) : Receiving v 32 (feedAll [9000, 4500] Decoder.zero) :=
  ⟨.inl (by decide), by decide, (Nat.div_eq_of_lt v.isLt).symm⟩

/-- The 65 feeds before the last leave a frame in the middle, and the last completes the word. -/
theorem feed_frame (v : BitVec 32) : FeedsStayMidFrame (frameFront v) Decoder.zero ∧
    Receiving v 0 (feed (spaceWidth (v.getLsbD 0)) (feedAll (frameFront v) Decoder.zero)) := by
  have hleader : FeedsStayMidFrame [9000, 4500] Decoder.zero := ⟨by decide, by decide, trivial⟩
  obtain ⟨hcells, hlast⟩ := feed_cells_of_receiving v 31 0 _ (receiving_of_leader v)
  have hmark : FeedsStayMidFrame [560] (feedAll (((bitsDown v 32).take 31).flatMap cellWidths)
      (feedAll [9000, 4500] Decoder.zero)) := ⟨bitMark_midFrame_of_receiving hlast, trivial⟩
  rw [← feedAll_append] at hmark
  constructor
  · exact .append _ _ _ (.append _ _ _ hleader hcells) hmark
  · rw [frameFront, feedAll_append, feedAll_append]
    exact receiving_shiftIn hlast

/-! ## The whole run -/

/-- The whole run of FRAME: the last step takes the frame word. -/
theorem execAll_frameOps (v : BitVec 32) (s : State) (h : s.dec = Decoder.zero) :
    ∃ t w, t.rom = s.rom ∧ t.inputs = s.inputs ∧ execAll (frameOps v) s =
      .next (complete t .zero { frameResponse s.rom (splitFrame v) with width := w }) := by
  obtain ⟨hfront, hfull⟩ := feed_frame v
  rw [← h] at hfront hfull
  obtain ⟨t, hrun, hdec, hrom, hinputs, -⟩ := execAll_stepW_of_midFrame _ s hfront
  rw [← hdec] at hfull
  have hword : (feed (spaceWidth (v.getLsbD 0)) t.dec).acc = v := by
    rw [← BitVec.toNat_inj, hfull.acc, Nat.pow_zero, Nat.div_one]
  refine ⟨t, spaceWidth (v.getLsbD 0), hrom, hinputs, ?_⟩
  rw [frameOps_eq_map, frameWidths_eq_front, List.map_append, execAll_append_of_next _ _ _ _ hrun,
    List.map_singleton, execAll_stepW_cons, stepOp_of_full _ _ hfull.count, hword, hrom]
  rfl

/-- Every shorter run of FRAME's steps ends with PENDING. -/
theorem execAll_frameOps_take (v : BitVec 32) (s : State) (h : s.dec = Decoder.zero) (n : Nat)
    (hpos : 1 ≤ n) (hn : n ≤ 65) : ∃ t, execAll ((frameOps v).take n) s = .next t ∧
      t.resp.kind = .pending ∧ t.resp.outValid = false := by
  have hprefix : (frameOps v).take n = ((frameFront v).take n).map .stepW := by
    rw [frameOps_eq_map, frameWidths_eq_front, ← List.map_take,
      List.take_append_of_le_length (frameFront_length v ▸ hn)]
  have hmid := (feed_frame v).1.take n
  rw [← h] at hmid
  obtain ⟨t, hrun, -, -, -, hresp⟩ := execAll_stepW_of_midFrame _ s hmid
  rw [← hprefix] at hrun
  rcases hresp with ⟨hnil, -⟩ | hresp
  · have hlen := congrArg List.length hnil
    rw [List.length_take, frameFront_length, List.length_nil] at hlen
    omega
  · exact ⟨t, hrun, hresp⟩

theorem frameResponse_kind (rom : Memory) (f : DecodedFrame) :
    (frameResponse rom f).kind = if f.valid then .ok else .implausible := by
  rcases frameResponse_cases rom f with ⟨hvalid, hr⟩ | ⟨hvalid, hr⟩ <;> rw [hr, hvalid] <;> rfl

/-- The frame word of NECFRAME splits into the bytes it is made of. -/
theorem splitFrame_necWord (a c : Byte) : splitFrame (necWord a c) = ⟨a, ~~~a, c, ~~~c⟩ := by
  have hparts : (necWord a c).extractLsb' 24 8 ++ (necWord a c).extractLsb' 16 8 ++
      (necWord a c).extractLsb' 8 8 ++ (necWord a c).extractLsb' 0 8 = necWord a c := by
    simp (disch := omega) only [BitVec.extractLsb'_append_extractLsb'_eq_extractLsb']
    exact BitVec.extractLsb'_eq_self
  rw [necWord, append_eq_append_iff, append_eq_append_iff, append_eq_append_iff] at hparts
  obtain ⟨⟨⟨ha, hna⟩, hc⟩, hnc⟩ := hparts
  exact congr (congr (congr (congrArg DecodedFrame.mk ha) hna) hc) hnc

theorem valid_of_complements (a c : Byte) : (⟨a, ~~~a, c, ~~~c⟩ : DecodedFrame).valid = true := by
  simp [DecodedFrame.valid]

/-- Settles O39: the prefixes of the 66 steps stay mid-frame, and the last step takes the word that the
cells spell; a NECFRAME's word is valid by construction. -/
theorem frameStepsDecodeTheFrame : Obligations.FrameStepsDecodeTheFrame := by
  constructor
  · intro v s h
    refine ⟨?_, execAll_frameOps_take v s h, ?_⟩
    · rw [frameOps_eq_map, frameWidths_eq_front, List.length_map, List.length_append,
        frameFront_length]
      rfl
    · obtain ⟨t, w, hrom, hinputs, hrun⟩ := execAll_frameOps v s h
      exact ⟨_, hrun, rfl, hrom, hinputs, frameResponse_kind s.rom (splitFrame v)⟩
  · intro a c s h
    obtain ⟨t, w, -, -, hrun⟩ := execAll_frameOps (necWord a c) s h
    rw [splitFrame_necWord, frameResponse, if_pos (valid_of_complements a c)] at hrun
    exact ⟨_, hrun, rfl, rfl, rfl, rfl, rfl⟩

end Sys2Proof.Machine
end

section
/-! SUPPORT. The pulse width (40_pulse_width.md) as the smaller way round the counter, what it is for an
interval of any length, and the two capture operations that feed it. -/

namespace Sys2Proof.Machine

/-! ## The fold is a minimum (R80, R81) -/

theorem absDiff_self (a : Nat) : absDiff a a = 0 := by simp [absDiff]

theorem absDiff_comm (a b : Nat) : absDiff a b = absDiff b a := by
  unfold absDiff
  split <;> split <;> omega

/-- Above half the modulus the complement is the smaller, otherwise the difference is. -/
theorem pulseWidth_toNat_eq_min (t1 t2 : Timestamp) :
    (pulseWidth t1 t2).toNat =
      min (absDiff t2.toNat t1.toNat) (65536 - absDiff t2.toNat t1.toNat) := by
  rw [pulseWidth_toNat]
  split
  · exact (min_eq_right (by omega)).symm
  · exact (min_eq_left (by omega)).symm

theorem pulseWidth_self (t : Timestamp) : pulseWidth t t = 0 := by
  rw [← BitVec.toNat_inj, pulseWidth_toNat_eq_min, absDiff_self]
  rfl

theorem pulseWidth_comm (t1 t2 : Timestamp) : pulseWidth t1 t2 = pulseWidth t2 t1 := by
  rw [← BitVec.toNat_inj, pulseWidth_toNat_eq_min, pulseWidth_toNat_eq_min, absDiff_comm]

/-- Settles O14: the pulse width's two branches, and neither exceeds half the modulus. -/
theorem pulseWidthFoldsAboveHalf : Obligations.PulseWidthFoldsAboveHalf := by
  intro t1 t2 d
  have hpw := pulseWidth_toNat t1 t2
  rw [absDiff_eq_natAbs] at hpw
  rw [hpw]
  refine ⟨fun h => if_pos h, fun h => if_neg (Nat.not_lt.2 h), ?_⟩
  split <;> omega

/-- Settles O15: the pulse width as a minimum, and which of its two sides is the smaller. -/
theorem pulseWidthIsTheSmallerDifference : Obligations.PulseWidthIsTheSmallerDifference := by
  intro t1 t2 d
  have hmin := pulseWidth_toNat_eq_min t1 t2
  rw [absDiff_eq_natAbs] at hmin
  exact ⟨hmin, by omega, by omega⟩

/-- Settles O16: the two general cases by symmetry of the difference, the five numeric ones by running
the model. -/
theorem pulseWidthCornerCases : Obligations.PulseWidthCornerCases :=
  ⟨pulseWidth_self, pulseWidth_comm, by decide⟩

/-! ## The width of an interval of any length (R85) -/

/-- Two timestamps `E` ticks apart differ by `E` on the counter, or by its complement if the counter
wrapped between them. -/
theorem absDiff_elapsed_cases (t E : Nat) (h : t < 65536) :
    absDiff ((t + E) % 65536) t = E % 65536 ∨
    absDiff ((t + E) % 65536) t = 65536 - E % 65536 := by
  unfold absDiff
  split
  · left; omega
  · right; omega

/-- A pulse width measures an interval up to the wraps of the counter and up to its direction. -/
theorem pulseWidth_elapsed (t : Timestamp) (E : Nat) :
    (pulseWidth t (BitVec.ofNat 16 ((t.toNat + E) % 65536))).toNat =
      min (E % 65536) (65536 - E % 65536) := by
  have hlater : (BitVec.ofNat 16 ((t.toNat + E) % 65536)).toNat = (t.toNat + E) % 65536 :=
    Nat.mod_mod _ _
  rw [pulseWidth_toNat_eq_min, hlater]
  rcases absDiff_elapsed_cases t.toNat E t.isLt with hdirect | hwrapped
  · rw [hdirect]
  · rw [hwrapped, Nat.sub_sub_self (by omega), min_comm]

/-- Settles O17: the width of an elapsed time, which is at most half the modulus and is the time itself
up to there. -/
theorem longIntervalsAlias : Obligations.LongIntervalsAlias := by
  refine ⟨fun t1 E => ?_, fun t1 => pulseWidth_elapsed t1 40000,
    fun t1 => pulseWidth_elapsed t1 (65536 + 9000)⟩
  intro pw
  have hpw : pw = min (E % 65536) (65536 - E % 65536) := pulseWidth_elapsed t1 E
  refine ⟨fun _ => hpw, fun hzero => ?_, ?_⟩
  · rw [hpw, hzero, Nat.zero_min]
  · rw [hpw]
    constructor <;> intro <;> omega

/-! ## The capture operations are width operations on the pulse width (R82, R100, R150) -/

theorem captureWidth_toNat_eq_min (t1 t2 : Timestamp) :
    (captureWidth t1 t2).toNat = min ((t2.toNat : Int) - (t1.toNat : Int)).natAbs
      (65536 - ((t2.toNat : Int) - (t1.toNat : Int)).natAbs) := by
  rw [captureWidth_toNat, pulseWidth_toNat_eq_min, absDiff_eq_natAbs]

theorem exec_feedCap (pol : Polarity) (t1 t2 : Timestamp) (s : State) :
    exec (.feedCap pol t1 t2) s = .next (feedOp (captureWidth t1 t2) s) := rfl

theorem exec_stepCap (pol : Polarity) (t1 t2 : Timestamp) (s : State) :
    exec (.stepCap pol t1 t2) s = .next (stepOp (captureWidth t1 t2) s) := rfl

theorem exec_take (s : State) : exec .take s =
    .next (complete s (takeFrame s.rom s.dec).1 (takeFrame s.rom s.dec).2) := rfl

/-- A step is a take of the state its feed left, but for the width on the response. -/
theorem stepOp_eq_take_of_feedOp (w : Width) (s : State) : ∃ v, exec .take (feedOp w s) = .next v ∧
    stepOp w s = { v with resp := { v.resp with width := w } } :=
  ⟨_, exec_take _, rfl⟩

/-- Settles O28: the width whose number is the smaller difference is the capture width. -/
theorem feedCapFeedsThePulseWidth : Obligations.FeedCapFeedsThePulseWidth := by
  intro pol t1 t2 w s hw
  have hcapture : captureWidth t1 t2 = w := by
    rw [← BitVec.toNat_inj, captureWidth_toNat_eq_min, hw]
  rw [exec_feedCap, exec_feedW, hcapture]
  exact ⟨rfl, feedOp w s, rfl, feedOp_dec w s, rfl⟩

/-- Settles O34: a step on the capture width, which is the smaller difference. -/
theorem stepCapIsFeedThenTake : Obligations.StepCapIsFeedThenTake := by
  intro pol t1 t2 s
  obtain ⟨v, htake, hstep⟩ := stepOp_eq_take_of_feedOp (captureWidth t1 t2) s
  refine ⟨_, v, exec_feedCap pol t1 t2 s, htake, ?_⟩
  rw [exec_stepCap, hstep, ← captureWidth_toNat_eq_min, BitVec.ofNat_toNat, BitVec.setWidth_eq]

end Sys2Proof.Machine
end

section
/-! SUPPORT. The shift-in of a data bit (41_decoder_fsm.md R97, R98), and the number that a run of them
leaves in the accumulator. -/

namespace Sys2Proof.Machine

/-! ## One shift-in -/

theorem shiftIn_of_lt (b : Bool) (next : Phase) (d : Decoder) (h : d.bits.toNat < 32) :
    (shiftIn b next d).st = next ∧ (shiftIn b next d).bits.toNat = d.bits.toNat + 1 ∧
    (shiftIn b next d).acc.toNat = (2 * d.acc.toNat + b.toNat) % 2 ^ 32 := by
  rcases shiftIn_cases b next d with ⟨-, hst, hbits, hacc, -⟩ | ⟨hfull, -⟩
  · exact ⟨hst, hbits, hacc⟩
  · exact absurd h (Nat.not_lt.2 hfull)

theorem shiftIn_of_full (b : Bool) (next : Phase) (d : Decoder) (h : 32 ≤ d.bits.toNat) :
    shiftIn b next d = Decoder.zero := by
  rcases shiftIn_cases b next d with ⟨hlt, -⟩ | ⟨-, hzero⟩
  · exact absurd hlt (Nat.not_lt.2 h)
  · exact hzero

/-- A shift-in writes the phase and does not read it. -/
theorem shiftIn_ignores_st (b : Bool) (next st : Phase) (d : Decoder) :
    shiftIn b next { d with st := st } = shiftIn b next d := rfl

/-- The phase a data bit is shifted into (R96). -/
abbrev dataPhase (b : Bool) : Phase := if b then .data1 else .data0

/-! ## A run of shift-ins -/

/-- The number that bits give when they are appended to `v` at bit 0, first to last. -/
def bitsValue (v : Nat) (bs : List Bool) : Nat := bs.foldl (fun v b => 2 * v + b.toNat) v

theorem bitsValue_cons (v : Nat) (b : Bool) (bs : List Bool) :
    bitsValue v (b :: bs) = bitsValue (Nat.bit b v) bs := by
  rw [Nat.bit_val]
  rfl

theorem bitsValue_append (v : Nat) (bs cs : List Bool) :
    bitsValue v (bs ++ cs) = bitsValue (bitsValue v bs) cs := List.foldl_append

/-- While at most 32 bits are held, a run of shift-ins counts its bits and discards none. -/
theorem shiftInAll_toNat : ∀ (bs : List Bool) (d : Decoder), d.acc.toNat < 2 ^ d.bits.toNat →
    d.bits.toNat + bs.length ≤ 32 →
    (shiftInAll bs d).bits.toNat = d.bits.toNat + bs.length ∧
    (shiftInAll bs d).acc.toNat = bitsValue d.acc.toNat bs
  | [], _, _, _ => ⟨rfl, rfl⟩
  | b :: bs, d, hacc, hlen => by
    rw [List.length_cons] at hlen
    obtain ⟨-, hbits', hacc'⟩ := shiftIn_of_lt b (dataPhase b) d (by omega)
    have hsmall : 2 * d.acc.toNat + b.toNat < 2 ^ (d.bits.toNat + 1) := by
      have := Bool.toNat_le b
      omega
    have hfits : 2 ^ (d.bits.toNat + 1) ≤ 2 ^ 32 := Nat.pow_le_pow_right (by omega) (by omega)
    rw [Nat.mod_eq_of_lt (hsmall.trans_le hfits)] at hacc'
    obtain ⟨hbits, hval⟩ := shiftInAll_toNat bs (shiftIn b (dataPhase b) d)
      (by rwa [hacc', hbits']) (by omega)
    rw [hbits'] at hbits
    rw [hacc'] at hval
    exact ⟨by rw [List.length_cons, Nat.add_comm bs.length, ← Nat.add_assoc]; exact hbits, hval⟩

theorem shiftInAll_empty (bs : List Bool) (d : Decoder) (hlen : bs.length ≤ 32) (hbits : d.bits = 0)
    (hacc : d.acc = 0) : (shiftInAll bs d).bits.toNat = bs.length ∧
      (shiftInAll bs d).acc.toNat = bitsValue 0 bs := by
  have h := shiftInAll_toNat bs d (by rw [hacc, hbits]; decide) (by rw [hbits]; simpa using hlen)
  simpa [hbits, hacc] using h

/-- Appending bits moves a number up by as many places. -/
theorem testBit_bitsValue_length_add : ∀ (bs : List Bool) (v j : Nat),
    (bitsValue v bs).testBit (bs.length + j) = v.testBit j
  | [], _, _ => by rw [List.length_nil, Nat.zero_add]; rfl
  | b :: bs, v, j => by
    rw [bitsValue_cons, List.length_cons, Nat.add_right_comm, Nat.add_assoc,
      testBit_bitsValue_length_add bs, Nat.testBit_bit_succ]

/-- The first bit appended stands highest. -/
theorem testBit_bitsValue : ∀ (bs : List Bool) (v k : Nat), k < bs.length →
    some ((bitsValue v bs).testBit (bs.length - 1 - k)) = bs[k]?
  | b :: bs, v, 0, _ => by
    rw [bitsValue_cons, List.length_cons, Nat.add_sub_cancel, Nat.sub_zero, List.getElem?_cons_zero,
      ← Nat.add_zero bs.length, testBit_bitsValue_length_add, Nat.testBit_bit_zero]
  | b :: bs, v, k + 1, hk => by
    have hplace : bs.length - (k + 1) = bs.length - 1 - k := by omega
    rw [bitsValue_cons, List.length_cons, Nat.add_sub_cancel, hplace, List.getElem?_cons_succ]
    exact testBit_bitsValue bs (Nat.bit b v) k (Nat.lt_of_succ_lt_succ hk)

/-- Settles O20: up to 32 bits make a number below 2^32, whose highest bit is the first one. -/
theorem shiftInAppendsAtBitZero : Obligations.ShiftInAppendsAtBitZero := by
  refine ⟨shiftIn_of_lt, shiftInAll_empty, fun bs d k hlen hbits hacc hpos hk => ?_⟩
  obtain ⟨-, hval⟩ := shiftInAll_empty bs d hlen.le hbits hacc
  rw [← testBit_bitsValue bs 0 (k - 1) (by omega), ← hval, hlen, BitVec.getLsbD]
  congr 2
  omega

/-! ## Bytes, most significant bit first (20_memory.md R44) -/

theorem toNat_append_eq_add {m n : Nat} (x : BitVec m) (y : BitVec n) :
    (x ++ y).toNat = x.toNat * 2 ^ n + y.toNat := by
  rw [BitVec.toNat_append, ← Nat.shiftLeft_add_eq_or_of_lt y.isLt, Nat.shiftLeft_eq]

/-- The bits of a value, most significant first. -/
abbrev msbFirst {n : Nat} (x : BitVec n) : List Bool := List.ofFn (fun k : Fin n => x.getMsbD k)

theorem msbFirst_cons {n : Nat} (b : Bool) (x : BitVec n) :
    msbFirst (BitVec.cons b x) = b :: msbFirst x := by
  simp [msbFirst, List.ofFn_succ]

/-- Appending a value's bits most significant first appends the value. -/
theorem bitsValue_msbFirst : ∀ {n : Nat} (x : BitVec n) (v : Nat),
    bitsValue v (msbFirst x) = v * 2 ^ n + x.toNat
  | 0, x, v => by simp [msbFirst, bitsValue, BitVec.toNat_of_zero_length]
  | n + 1, x, v => by
    rw [← BitVec.cons_msb_setWidth x, msbFirst_cons, bitsValue_cons, bitsValue_msbFirst,
      Nat.bit_val, BitVec.toNat_cons', Nat.shiftLeft_eq]
    ring

/-- Settles O21: both sides are the number with the four bytes as its digits, first byte highest. -/
theorem firstByteReceivedIsTheHighByte : Obligations.FirstByteReceivedIsTheHighByte := by
  intro a ac c cc d hbits hacc
  obtain ⟨-, hval⟩ := shiftInAll_empty ([a, ac, c, cc].flatMap msbFirst) d (by simp) hbits hacc
  rw [← BitVec.toNat_inj, hval]
  simp only [List.flatMap_cons, List.flatMap_nil, List.append_nil, bitsValue_append,
    bitsValue_msbFirst, toNat_append_eq_add, Nat.zero_mul, Nat.zero_add]

end Sys2Proof.Machine
end

section
/-! SUPPORT. The transition table (41_decoder_fsm.md R91 to R98): an equation per phase, and what follows
for a feed in the middle of a frame. -/

namespace Sys2Proof.Machine

/-- Settles O18: the order of words is that of their numbers. -/
theorem windowsIncludeBothBounds : Obligations.WindowsIncludeBothBounds := by
  refine ⟨fun w lo hi => ?_, by decide⟩
  rw [inWin_iff_toNat, Bool.and_eq_true, decide_eq_true_iff, decide_eq_true_iff]

/-! ## The rows of the table (R93 to R96) -/

/-- The phases in which a bit mark comes next (R95). -/
abbrev Decoder.AwaitsMark (d : Decoder) : Prop := d.st = .start2 ∨ d.st = .data0 ∨ d.st = .data1

theorem feed_of_reset (w : Width) (d : Decoder) (h : d.st = .reset) :
    feed w d = if 7900 ≤ w.toNat ∧ w.toNat ≤ 10100 then { d with st := .start1 } else Decoder.zero := by
  simp only [feed, h, isLeaderMark_iff, enterReset_eq]

theorem feed_of_start1 (w : Width) (d : Decoder) (h : d.st = .start1) :
    feed w d = if 3400 ≤ w.toNat ∧ w.toNat ≤ 5600 then { d with st := .start2 } else Decoder.zero := by
  simp only [feed, h, isLeaderSpace_iff, enterReset_eq]

theorem feed_of_awaitsMark (w : Width) (d : Decoder) (h : d.AwaitsMark) : feed w d =
    if 350 ≤ w.toNat ∧ w.toNat ≤ 750 then { d with st := .pulseMarker } else Decoder.zero := by
  rcases h with h | h | h <;> simp only [feed, h, isBitMark_iff, enterReset_eq]

theorem feed_of_pulseMarker (w : Width) (d : Decoder) (h : d.st = .pulseMarker) : feed w d =
    if 350 ≤ w.toNat ∧ w.toNat ≤ 750 then shiftIn false .data0 d
    else if 1400 ≤ w.toNat ∧ w.toNat ≤ 1900 then shiftIn true .data1 d
    else Decoder.zero := by
  simp only [feed, h, isShortSpace_iff, isLongSpace_iff, enterReset_eq]

/-- With a complete frame held, PulseMarker has no way on: a data space overruns and any other width is
out of window. -/
theorem feed_of_pulseMarker_full (w : Width) (d : Decoder) (h : d.st = .pulseMarker)
    (hfull : d.bits.toNat = 32) : feed w d = Decoder.zero := by
  rw [feed_of_pulseMarker w d h, shiftIn_of_full _ _ d hfull.ge, shiftIn_of_full _ _ d hfull.ge,
    ite_self, ite_self]

/-- Settles O19: each phase's row, with the width inside its window or outside. -/
theorem transitionTableCoversEveryWidth : Obligations.TransitionTableCoversEveryWidth := by
  intro w d
  refine ⟨fun h => ?_, fun h => ?_, fun h => ?_, fun h => ⟨?_, ?_, ?_, ?_⟩⟩
  · rw [feed_of_reset w d h]
    exact ⟨fun hin => if_pos hin, fun hout => if_neg (by omega)⟩
  · rw [feed_of_start1 w d h]
    exact ⟨fun hin => if_pos hin, fun hout => if_neg (by omega)⟩
  · rw [feed_of_awaitsMark w d h]
    exact ⟨fun hin => if_pos hin, fun hout => if_neg (by omega)⟩
  · intro ⟨hlo, hhi, hlt⟩
    rw [feed_of_pulseMarker w d h, if_pos ⟨hlo, hhi⟩]
    exact shiftIn_of_lt false .data0 d hlt
  · intro ⟨hlo, hhi, hlt⟩
    rw [feed_of_pulseMarker w d h, if_neg (by omega), if_pos ⟨hlo, hhi⟩]
    exact shiftIn_of_lt true .data1 d hlt
  · exact feed_of_pulseMarker_full w d h
  · intro hout
    rw [feed_of_pulseMarker w d h, if_neg (by omega), if_neg (by omega)]
    rfl

/-! ## Overruns (R98) -/

/-- One feed adds at most one bit. -/
theorem feed_bits_le (w : Width) (d : Decoder) (h : d.bits.toNat < 32) :
    (feed w d).bits.toNat ≤ 32 := by
  have hshift (b : Bool) (next : Phase) : (shiftIn b next d).bits.toNat ≤ 32 := by
    obtain ⟨-, hbits, -⟩ := shiftIn_of_lt b next d h
    omega
  rcases feed_cases w d with hf | ⟨-, -, hf⟩ | ⟨-, -, hf⟩ | ⟨-, -, hf⟩ | ⟨-, -, -, hf⟩ |
    ⟨-, -, -, hf⟩ <;> rw [hf]
  · decide
  · exact h.le
  · exact h.le
  · exact h.le
  · exact hshift false .data0
  · exact hshift true .data1

theorem zero_bits_lt : Decoder.zero.bits.toNat < 32 := by decide

/-- A take leaves no complete frame behind. -/
theorem takeFrame_bits_lt (rom : Memory) (d : Decoder) (h : d.bits.toNat ≤ 32) :
    (takeFrame rom d).1.bits.toNat < 32 := by
  by_cases hfull : d.bits.toNat = 32
  · rw [takeFrame_of_full rom d hfull]
    exact zero_bits_lt
  · rw [takeFrame_keeps_dec rom d hfull]
    omega

theorem stepOp_bits_lt (w : Width) (s : State) (h : s.dec.bits.toNat < 32) :
    (stepOp w s).dec.bits.toNat < 32 :=
  takeFrame_bits_lt s.rom _ (feed_bits_le w s.dec h)

/-- An operation of the orchestrator's (R153) leaves no complete frame behind. -/
theorem exec_bits_lt_of_stepDiscipline (i : Instr) (s t : State) (hi : stepDiscipline i = true)
    (h : s.dec.bits.toNat < 32) (hexec : exec i s = .next t) : t.dec.bits.toNat < 32 := by
  rcases exec_cases i s t hexec with ⟨-, rfl⟩ | ⟨_, _, _, rfl, -⟩ | ⟨_, rfl, -⟩ | ⟨rfl, -⟩ |
    ⟨-, t1, t2, -, rfl⟩ | ⟨w, -, rfl⟩ | ⟨c, -, rfl⟩ | ⟨-, rfl⟩
  · exact h
  · cases hi
  · cases hi
  · cases hi
  · exact stepOp_bits_lt _ s h
  · exact stepOp_bits_lt w s h
  · exact h
  · exact zero_bits_lt

/-- Settles O22: the reset at 32 bits, and the operations that never leave that many. -/
theorem overrunResets : Obligations.OverrunResets :=
  ⟨fun b next d hfull => shiftIn_of_full b next d hfull.ge,
    fun w d hst hfull _ => feed_of_pulseMarker_full w d hst hfull, exec_bits_lt_of_stepDiscipline⟩

/-! ## A leader inside a frame (R105) -/

theorem feed_of_not_reset (w : Width) (d : Decoder) (h : d.st ≠ .reset) :
    feed w d = Decoder.zero ∨
    (d.st = .start1 ∧ (feed w d).st = .start2) ∨
    (d.AwaitsMark ∧ (feed w d).st = .pulseMarker) ∨
    (d.st = .pulseMarker ∧ ((feed w d).st = .data0 ∨ (feed w d).st = .data1)) := by
  rcases feed_cases w d with hf | ⟨hst, -⟩ | ⟨hst, -, hf⟩ | ⟨hst, -, hf⟩ | ⟨hst, -, hlt, hf⟩ |
    ⟨hst, -, hlt, hf⟩
  · exact .inl hf
  · exact absurd hst h
  · exact .inr (.inl ⟨hst, by rw [hf]⟩)
  · exact .inr (.inr (.inl ⟨hst, by rw [hf]⟩))
  · exact .inr (.inr (.inr ⟨hst, .inl (by rw [hf, (shiftIn_of_lt _ _ d hlt).1])⟩))
  · exact .inr (.inr (.inr ⟨hst, .inr (by rw [hf, (shiftIn_of_lt _ _ d hlt).1])⟩))

theorem feed_leaves_reset_iff (w : Width) (d : Decoder) (h : d.st = .reset) :
    (feed w d).st ≠ .reset ↔ 7900 ≤ w.toNat ∧ w.toNat ≤ 10100 := by
  rw [feed_of_reset w d h]
  split
  · exact iff_of_true nofun ‹_›
  · exact iff_of_false (not_not.2 rfl) ‹_›

/-- No other window reaches up to the leader mark's. -/
theorem feed_leaderMark_of_not_reset (w : Width) (d : Decoder) (h : d.st ≠ .reset)
    (hw : 7900 ≤ w.toNat) : feed w d = Decoder.zero := by
  rcases hst : d.st with _ | _ | _ | _ | _ | _
  · exact absurd hst h
  · rw [feed_of_start1 w d hst, if_neg (by omega)]
  · rw [feed_of_awaitsMark w d (.inl hst), if_neg (by omega)]
  · rw [feed_of_pulseMarker w d hst, if_neg (by omega), if_neg (by omega)]
  · rw [feed_of_awaitsMark w d (.inr (.inl hst)), if_neg (by omega)]
  · rw [feed_of_awaitsMark w d (.inr (.inr hst)), if_neg (by omega)]

/-- Without a leader mark the registers stay at reset. -/
theorem feedAll_zero_of_lt : ∀ ws : List Width, (∀ w ∈ ws, w.toNat < 7900) →
    feedAll ws Decoder.zero = Decoder.zero
  | [], _ => rfl
  | w :: ws, h => by
    obtain ⟨hw, hws⟩ := List.forall_mem_cons.1 h
    have hfeed : feed w Decoder.zero = Decoder.zero := by
      rw [feed_of_reset w _ rfl, if_neg (by omega)]
    rw [feedAll, List.foldl_cons, hfeed]
    exact feedAll_zero_of_lt ws hws

/-- Settles O24: a leader mark outside Reset resets, and what follows it holds no leader mark. -/
theorem newLeaderInsideAFrameIsLost : Obligations.NewLeaderInsideAFrameIsLost := by
  refine ⟨feed_of_not_reset, feed_leaves_reset_iff,
    fun mark space cells d hst hmark _ _ hspace hcells => ?_⟩
  have hrest : ∀ w ∈ space :: cells, w.toNat < 7900 :=
    List.forall_mem_cons.2 ⟨by omega, fun w hw => by have := hcells w hw; omega⟩
  rw [feedAll, List.foldl_cons, feed_leaderMark_of_not_reset mark d hst hmark]
  exact feedAll_zero_of_lt _ hrest

/-! ## A bit mark after a complete frame (R193) -/

/-- A take of a complete frame reads the accumulator and not the phase. -/
theorem exec_take_of_full (s : State) (h : s.dec.bits.toNat = 32) : exec .take s =
    .next (complete s Decoder.zero (frameResponse s.rom (splitFrame s.dec.acc))) := by
  rw [exec_take, takeFrame_of_full s.rom s.dec h]

/-- Settles O25: the mark changes the phase alone, and PulseMarker with a complete frame only resets. -/
theorem bitMarkKeepsAWaitingFrame : Obligations.BitMarkKeepsAWaitingFrame := by
  intro mark space s hfull hst hlo hhi
  have hdec : (feedOp mark s).dec = { s.dec with st := .pulseMarker } := by
    rw [feedOp_dec, feed_of_awaitsMark mark s.dec (.inr hst), if_pos ⟨hlo, hhi⟩]
  refine ⟨feedOp mark s, _, feedOp space (feedOp mark s), exec_feedW mark s, hdec, ?_,
    exec_take_of_full s hfull, exec_feedW space _, ?_⟩
  · rw [exec_take_of_full _ (by rw [hdec]; exact hfull), hdec]
    rfl
  · rw [feedOp_dec, hdec]
    exact feed_of_pulseMarker_full space _ rfl hfull

end Sys2Proof.Machine
end

section
/-! SUPPORT. Runs of the state machine: the 66 feeds of a frame (41_decoder_fsm.md R104), the operations of
the orchestrator (44_sequencing.md R153), and the reachable states (10_state.md R28). -/

namespace Sys2Proof.Machine

/-! ## The feeds of any frame in its windows (R104) -/

/-- A bit mark and a data space, each in a window. -/
abbrev IsCell (c : Width × Width) : Prop := 350 ≤ c.1.toNat ∧ c.1.toNat ≤ 750 ∧
  ((350 ≤ c.2.toNat ∧ c.2.toNat ≤ 750) ∨ (1400 ≤ c.2.toNat ∧ c.2.toNat ≤ 1900))

/-- The bit a cell stands for. -/
abbrev cellBit (c : Width × Width) : Bool := decide (1400 ≤ c.2.toNat)

/-- The widths of cells in the order they are fed. -/
abbrev cellFeeds (cells : List (Width × Width)) : List Width := cells.flatMap (fun c => [c.1, c.2])

theorem feed_mark (c : Width × Width) (d : Decoder) (hd : d.AwaitsMark) (hc : IsCell c) :
    feed c.1 d = { d with st := .pulseMarker } := by
  obtain ⟨hlo, hhi, -⟩ := hc
  rw [feed_of_awaitsMark _ d hd, if_pos ⟨hlo, hhi⟩]

/-- A cell shifts in its bit. -/
theorem feed_cell (c : Width × Width) (d : Decoder) (hd : d.AwaitsMark) (hc : IsCell c) :
    feed c.2 (feed c.1 d) = shiftIn (cellBit c) (dataPhase (cellBit c)) d := by
  rw [feed_mark c d hd hc, feed_of_pulseMarker _ _ rfl, shiftIn_ignores_st, shiftIn_ignores_st]
  obtain ⟨-, -, hshort | hlong⟩ := hc
  · rw [if_pos hshort, cellBit, decide_eq_false (by omega)]
    rfl
  · rw [if_neg (by omega), if_pos hlong, cellBit, decide_eq_true hlong.1]
    rfl

theorem shiftIn_awaitsMark (b : Bool) (d : Decoder) (h : d.bits.toNat < 32) :
    (shiftIn b (dataPhase b) d).AwaitsMark := by
  rw [Decoder.AwaitsMark, (shiftIn_of_lt b _ d h).1]
  cases b
  · exact .inr (.inl rfl)
  · exact .inr (.inr rfl)

/-- Cells shift in their bits, as long as there is room for them. -/
theorem feedAll_cells : ∀ (cells : List (Width × Width)) (d : Decoder), d.AwaitsMark →
    (∀ c ∈ cells, IsCell c) → d.bits.toNat + cells.length ≤ 32 →
    feedAll (cellFeeds cells) d = shiftInAll (cells.map cellBit) d ∧
    (feedAll (cellFeeds cells) d).AwaitsMark
  | [], _, hd, _, _ => ⟨rfl, hd⟩
  | c :: cells, d, hd, hcells, hlen => by
    obtain ⟨hc, hcells⟩ := List.forall_mem_cons.1 hcells
    rw [List.length_cons] at hlen
    have hlt : d.bits.toNat < 32 := by omega
    obtain ⟨-, hbits, -⟩ := shiftIn_of_lt (cellBit c) (dataPhase (cellBit c)) d hlt
    have hfeed : feedAll (cellFeeds (c :: cells)) d =
        feedAll (cellFeeds cells) (shiftIn (cellBit c) (dataPhase (cellBit c)) d) := by
      rw [← feed_cell c d hd hc]
      rfl
    rw [hfeed]
    exact feedAll_cells cells _ (shiftIn_awaitsMark _ d hlt) hcells (by omega)

theorem feedAll_keeps_inv : ∀ (ws : List Width) (d : Decoder), d.Inv → (feedAll ws d).Inv
  | [], _, h => h
  | w :: ws, d, h => feedAll_keeps_inv ws (feed w d) (feed_keeps_inv w d h)

theorem Decoder.AwaitsMark.midFrame {d : Decoder} (hd : d.AwaitsMark) (h : d.bits.toNat ≠ 32) :
    d.MidFrame := by
  refine ⟨?_, h⟩
  rcases hd with hst | hst | hst <;> simp [hst]

theorem feed_mark_midFrame (c : Width × Width) (d : Decoder) (hd : d.AwaitsMark) (hc : IsCell c)
    (h : d.bits.toNat < 32) : (feed c.1 d).MidFrame := by
  rw [feed_mark c d hd hc]
  exact ⟨nofun, h.ne⟩

/-- Cells with room for one more bit after them complete no frame. -/
theorem feedsStayMidFrame_cells : ∀ (cells : List (Width × Width)) (d : Decoder), d.AwaitsMark →
    (∀ c ∈ cells, IsCell c) → d.bits.toNat + cells.length < 32 →
    FeedsStayMidFrame (cellFeeds cells) d
  | [], _, _, _, _ => trivial
  | c :: cells, d, hd, hcells, hlen => by
    obtain ⟨hc, hcells⟩ := List.forall_mem_cons.1 hcells
    rw [List.length_cons] at hlen
    have hlt : d.bits.toNat < 32 := by omega
    obtain ⟨-, hbits, -⟩ := shiftIn_of_lt (cellBit c) (dataPhase (cellBit c)) d hlt
    have hawait := shiftIn_awaitsMark (cellBit c) d hlt
    have hrest := feedsStayMidFrame_cells cells _ hawait hcells (by omega)
    have hcell := hawait.midFrame (by omega)
    rw [← feed_cell c d hd hc] at hrest hcell
    exact ⟨feed_mark_midFrame c d hd hc hlt, hcell, hrest⟩

theorem FeedsStayMidFrame.midFrame_feedAll : ∀ (ws : List Width) (d : Decoder), ws ≠ [] →
    FeedsStayMidFrame ws d → (feedAll ws d).MidFrame
  | [], _, hne, _ => absurd rfl hne
  | [_], _, _, ⟨hw, _⟩ => hw
  | w :: v :: ws, d, _, ⟨_, hws⟩ => midFrame_feedAll (v :: ws) (feed w d) (List.cons_ne_nil v ws) hws

/-- A leader mark and a leader space. -/
abbrev IsLeader (mark space : Width) : Prop :=
  (7900 ≤ mark.toNat ∧ mark.toNat ≤ 10100) ∧ (3400 ≤ space.toNat ∧ space.toNat ≤ 5600)

/-- The registers after a leader. -/
abbrev Decoder.started : Decoder := { st := .start2, bits := 0, acc := 0 }

theorem feed_leaderMark {mark space : Width} (h : IsLeader mark space) :
    feed mark Decoder.zero = { Decoder.zero with st := .start1 } := by
  rw [feed_of_reset mark _ rfl, if_pos h.1]

theorem feedAll_leader {mark space : Width} (h : IsLeader mark space) :
    feedAll [mark, space] Decoder.zero = Decoder.started := by
  rw [feedAll, List.foldl_cons, feed_leaderMark h, List.foldl_cons, feed_of_start1 space _ rfl,
    if_pos h.2]
  rfl

theorem feedsStayMidFrame_leader {mark space : Width} (h : IsLeader mark space) :
    FeedsStayMidFrame [mark, space] Decoder.zero := by
  have hstarted : feed space (feed mark Decoder.zero) = Decoder.started := feedAll_leader h
  refine ⟨?_, ?_, trivial⟩
  · rw [feed_leaderMark h]
    decide
  · rw [hstarted]
    decide

theorem take_frame_feeds (mark space : Width) (front : List (Width × Width)) (last : Width × Width)
    (hlen : front.length = 31) : (mark :: space :: cellFeeds (front ++ [last])).take 65 =
      [mark, space] ++ cellFeeds front ++ [last.1] := by
  have hsplit : mark :: space :: cellFeeds (front ++ [last]) =
      ([mark, space] ++ cellFeeds front ++ [last.1]) ++ [last.2] := by simp
  rw [hsplit, List.take_left' (by simp [hlen])]

/-- The feeds of a frame before its last data space complete no frame. -/
theorem feedsStayMidFrame_frame {mark space : Width} (h : IsLeader mark space)
    (cells : List (Width × Width)) (hcells : ∀ c ∈ cells, IsCell c) (hlen : cells.length = 32) :
    FeedsStayMidFrame ((mark :: space :: cellFeeds cells).take 65) Decoder.zero := by
  obtain ⟨front, last, rfl⟩ : ∃ front last, cells = front ++ [last] :=
    (List.eq_nil_or_concat' cells).resolve_left (List.ne_nil_of_length_eq_add_one hlen)
  have hlen : front.length = 31 := by simpa using hlen
  obtain ⟨hfront, hlast⟩ := List.forall_mem_append.1 hcells
  obtain ⟨hrun, hawait⟩ :=
    feedAll_cells front Decoder.started (.inl rfl) hfront (by simp [hlen])
  obtain ⟨hbits, -⟩ :=
    shiftInAll_empty (front.map cellBit) Decoder.started (by simp [hlen]) rfl rfl
  rw [← hrun, List.length_map, hlen] at hbits
  rw [take_frame_feeds mark space front last hlen]
  refine .append _ _ _ (.append _ _ _ (feedsStayMidFrame_leader h) ?_) ?_
  · rw [feedAll_leader h]
    exact feedsStayMidFrame_cells front _ (.inl rfl) hfront (by simp [hlen])
  · rw [feedAll_append, feedAll_leader h]
    exact ⟨feed_mark_midFrame last _ hawait (hlast last List.mem_cons_self) (by omega), trivial⟩

/-- TAKE in the middle of a frame answers PENDING (R122). -/
theorem exec_take_of_midFrame (s : State) (h : s.dec.MidFrame) :
    ∃ t, exec .take s = .next t ∧ t.resp.kind = .pending := by
  refine ⟨_, exec_take s, ?_⟩
  rw [takeFrame_of_midFrame s.rom s.dec h]
  rfl

/-- The registers after a complete frame are in the phase of its last bit. -/
theorem data_of_awaitsMark_full (d : Decoder) (hd : d.AwaitsMark) (hinv : d.Inv)
    (hfull : d.bits.toNat = 32) : d.st = .data0 ∨ d.st = .data1 := by
  obtain ⟨-, -, hstart, -⟩ := hinv
  rcases hd with hst | hst
  · rw [(hstart (.inr hst)).1] at hfull
    cases hfull
  · exact hst

theorem bitsValue_map_cellBit (cells : List (Width × Width)) : bitsValue 0 (cells.map cellBit) =
    cells.foldl (fun v c => 2 * v + (if 1400 ≤ c.2.toNat then 1 else 0)) 0 := by
  simp only [bitsValue, List.foldl_map, cellBit, Bool.toNat, Bool.cond_decide]

/-- Settles O23: the 65 feeds before the last stay in the middle of a frame, and all 66 shift in the
bits of the 32 cells. -/
theorem sixtySixFeedsCompleteAFrame : Obligations.SixtySixFeedsCompleteAFrame := by
  intro mark space cells hmlo hmhi hslo hshi hlen hcells feeds
  have hleader : IsLeader mark space := ⟨⟨hmlo, hmhi⟩, hslo, hshi⟩
  obtain ⟨hrun, hawait⟩ := feedAll_cells cells Decoder.started (.inl rfl) hcells (by simp [hlen])
  obtain ⟨hbits, hacc⟩ :=
    shiftInAll_empty (cells.map cellBit) Decoder.started (by simp [hlen]) rfl rfl
  have hfeeds : feedAll feeds Decoder.zero = feedAll (cellFeeds cells) Decoder.started := by
    rw [← feedAll_leader hleader, ← feedAll_append]
    rfl
  rw [← hrun, ← hfeeds, List.length_map, hlen] at hbits
  rw [← hrun, ← hfeeds, bitsValue_map_cellBit] at hacc
  rw [← hfeeds] at hawait
  refine ⟨by simp [feeds, hlen], fun n hpos hn => ?_, hbits,
    data_of_awaitsMark_full _ hawait (feedAll_keeps_inv _ _ zero_inv) hbits, hacc⟩
  have hfront := (feedsStayMidFrame_frame hleader cells hcells hlen).take n
  rw [List.take_take, min_eq_left hn] at hfront
  have hmid := hfront.midFrame_feedAll _ _ (List.ne_nil_of_length_pos (by simp; omega))
  obtain ⟨-, hle, -⟩ := feedAll_keeps_inv (feeds.take n) _ zero_inv
  exact ⟨hmid.1, Nat.lt_of_le_of_ne hle hmid.2, fun s hs => exec_take_of_midFrame s (hs ▸ hmid)⟩

/-! ## The orchestrator's operations (R153) -/

theorem exec_total (i : Instr) (s : State) : ∃ t, exec i s = .next t := by
  cases i <;> exact ⟨_, rfl⟩

theorem execAll_of_stepDiscipline : ∀ (ops : List Instr) (s : State),
    (∀ i ∈ ops, stepDiscipline i = true) → s.dec.bits.toNat < 32 →
    ∃ t, execAll ops s = .next t ∧ t.dec.bits.toNat < 32
  | [], s, _, h => ⟨s, rfl, h⟩
  | i :: ops, s, hops, h => by
    obtain ⟨hi, hops⟩ := List.forall_mem_cons.1 hops
    obtain ⟨u, hu⟩ := exec_total i s
    have hlt := exec_bits_lt_of_stepDiscipline i s u hi h hu
    simp only [execAll, hu]
    exact execAll_of_stepDiscipline ops u hops hlt

theorem not_overrun_of_lt (w : Width) (d : Decoder) (h : d.bits.toNat < 32) : ¬ overrun w d :=
  fun ⟨_, hfull, _⟩ => h.ne ((bits_eq_frame_iff d.bits).1 hfull)

theorem stepOp_dec_of_full (w : Width) (s : State) (h : (feed w s.dec).bits.toNat = 32) :
    (stepOp w s).dec = Decoder.zero := by
  rw [stepOp_of_full w s h, complete_dec]

/-- Settles O38: each operation keeps fewer than 32 bits, and the two kinds of reset are a take's and an
overrun's. -/
theorem stepDisciplineNeverOverruns : Obligations.StepDisciplineNeverOverruns := by
  refine ⟨fun ops s hops h => ?_, fun w s t hfull hexec => ?_, fun pol t1 t2 s t hfull hexec => ?_,
    fun w s hfull hst _ => ?_⟩
  · obtain ⟨t, hrun, hlt⟩ := execAll_of_stepDiscipline ops s hops (by omega)
    exact ⟨t, hrun, by omega, fun w => not_overrun_of_lt w t.dec hlt⟩
  · cases hexec
    exact stepOp_dec_of_full w s hfull
  · cases hexec
    exact stepOp_dec_of_full _ s hfull
  · exact ⟨_, exec_feedW w s, feed_of_pulseMarker_full w s.dec hst hfull⟩

/-! ## The reachable states (R28) -/

theorem Reachable.inv {s : State} (h : Reachable s) : s.Inv := by
  induction h with
  | boot rom inputs hwf hrow => exact resetHasTheInvariant rom inputs hwf hrow
  | step s t _ hstep ih => exact stepKeepsTheInvariant s t ih hstep

/-- TAKE tells whether a complete frame is held (R121, R122). -/
theorem full_iff_take_consumes (s : State) : s.dec.bits.toNat = 32 ↔
    ∃ t, exec .take s = .next t ∧ (t.resp.kind = .ok ∨ t.resp.kind = .implausible) := by
  constructor
  · intro hfull
    refine ⟨_, exec_take_of_full s hfull, ?_⟩
    rw [complete_resp, withStatus_kind, frameResponse_kind]
    split
    · exact .inl rfl
    · exact .inr rfl
  · rintro ⟨t, htake, hkind⟩
    cases htake
    rw [complete_resp, withStatus_kind] at hkind
    rcases takeFrame_cases s.rom s.dec with ⟨hfull, -⟩ | ⟨-, -, ht⟩ | ⟨-, -, ht⟩
    · exact hfull
    · simp [ht] at hkind
    · simp [ht] at hkind

/-- Settles O49: (a) to (e) are part of the invariant of every reachable state, and (f) holds of every
state. -/
theorem reachableStatesSatisfyTheInvariants : Obligations.ReachableStatesSatisfyTheInvariants := by
  intro s h
  obtain ⟨⟨hreset, hle, hstart, hdata0, hdata1, hbound⟩, -⟩ := h.inv
  exact ⟨hreset, hle, hstart, hdata0, hdata1, hbound, full_iff_take_consumes s⟩

end Sys2Proof.Machine
end

section
/-! SUPPORT. The frame take (42_frame_take.md): the frame split and its validation, what TAKE leaves, the
checksum law, and the result of a step (44_sequencing.md R152). -/

namespace Sys2Proof.Machine

/-! ## The frame split and the complement pairs (R120, R123) -/

theorem splitFrame_address (acc : BitVec 32) :
    (splitFrame acc).address = BitVec.ofNat 8 (acc.toNat / 2 ^ 24) :=
  congrArg (BitVec.ofNat 8) (Nat.shiftRight_eq_div_pow _ _)

theorem splitFrame_command (acc : BitVec 32) :
    (splitFrame acc).command = BitVec.ofNat 8 (acc.toNat / 2 ^ 8 % 256) := by
  apply extract_eq_of_toNat
  rw [BitVec.toNat_ofNat]
  exact (Nat.mod_mod _ _).symm

theorem valid_iff (f : DecodedFrame) : f.valid = true ↔
    f.address = ~~~f.addressComplement ∧ f.command = ~~~f.commandComplement := by
  rw [DecodedFrame.valid, Bool.and_eq_true, beq_iff_eq, beq_iff_eq]

/-- A byte and its complement have no bit in common, so their sum is every bit. -/
theorem eq_not_iff_add_eq (x y : Byte) : x = ~~~y ↔ x.toNat + y.toNat = 255 := by
  have hx := x.isLt
  have hy := y.isLt
  rw [← BitVec.toNat_inj, BitVec.toNat_not]
  omega

theorem valid_splitFrame_iff_sums (acc : BitVec 32) : (splitFrame acc).valid = true ↔
    acc.toNat / 2 ^ 24 + acc.toNat / 2 ^ 16 % 256 = 255 ∧
    acc.toNat / 2 ^ 8 % 256 + acc.toNat % 256 = 255 := by
  have hacc := acc.isLt
  simp only [valid_iff, splitFrame, eq_not_iff_add_eq, BitVec.extractLsb'_toNat,
    Nat.shiftRight_eq_div_pow]
  omega

/-! ## TAKE (R121, R122, R125) -/

/-- Settles O29: the sums of the pairs decide validity, and the reset registers have status 0. -/
theorem takeConsumesACompleteFrame : Obligations.TakeConsumesACompleteFrame := by
  intro s hfull a ac c cc
  refine ⟨_, exec_take_of_full s hfull, rfl, rfl, rfl, fun hsums => ?_, fun hsums => ?_⟩
  · have hvalid := (valid_splitFrame_iff_sums s.dec.acc).2 hsums
    rw [frameResponse, if_pos hvalid, splitFrame_address, splitFrame_command]
    rfl
  · have hvalid := mt (valid_splitFrame_iff_sums s.dec.acc).1 hsums
    rw [frameResponse, if_neg hvalid]
    rfl

theorem takeFrame_of_not_full (rom : Memory) (d : Decoder) (h : d.bits.toNat ≠ 32) :
    takeFrame rom d =
      (d, { Response.zero with kind := if d.st = .reset then .noData else .pending }) := by
  rcases takeFrame_cases rom d with ⟨hfull, -⟩ | ⟨-, hst, ht⟩ | ⟨-, hst, ht⟩
  · exact absurd hfull h
  · rw [ht, if_pos hst]
  · rw [ht, if_neg hst]

theorem exec_take_of_not_full (s : State) (h : s.dec.bits.toNat ≠ 32) : exec .take s =
    .next (complete s s.dec
      { Response.zero with kind := if s.dec.st = .reset then .noData else .pending }) := by
  rw [exec_take, takeFrame_of_not_full s.rom s.dec h]

/-- A complete frame gets one of the two answers of R123 and R124. -/
theorem frameResponse_kind_cases (rom : Memory) (f : DecodedFrame) :
    (frameResponse rom f).kind = .ok ∨ (frameResponse rom f).kind = .implausible := by
  rcases frameResponse_cases rom f with ⟨-, hr⟩ | ⟨-, hr⟩ <;> rw [hr]
  · exact .inl rfl
  · exact .inr rfl

/-- Settles O30: without 32 bits TAKE completes the registers it found, and with them its answer is the
frame's. -/
theorem takeWithoutAFrameChangesNothing : Obligations.TakeWithoutAFrameChangesNothing := by
  refine ⟨exec_take_of_not_full, fun s hfull => ⟨_, exec_take_of_full s hfull, ?_⟩⟩
  rw [complete_resp, withStatus_kind]
  rcases frameResponse_kind_cases s.rom (splitFrame s.dec.acc) with hkind | hkind <;> rw [hkind]
  · exact ⟨nofun, nofun⟩
  · exact ⟨nofun, nofun⟩

/-- The kind of TAKE's answer tells that no complete frame was held. -/
theorem not_full_of_take (s t : State) (h : exec .take s = .next t)
    (hkind : t.resp.kind = .noData ∨ t.resp.kind = .pending) : s.dec.bits.toNat ≠ 32 := by
  intro hfull
  obtain ⟨u, hu, hno, hpend⟩ := takeWithoutAFrameChangesNothing.2 s hfull
  cases h.symm.trans hu
  exact hkind.elim hno hpend

/-- Settles O32: the registers after a take of a frame and after hardware reset are the same, and no
operation reads the response; a take without a frame finds what the one before found. -/
theorem takeIsIdempotentReset : Obligations.TakeIsIdempotentReset := by
  constructor
  · intro s t htake hkind
    have hfull := (full_iff_take_consumes s).2 ⟨t, htake, hkind⟩
    cases htake.symm.trans (exec_take_of_full s hfull)
    exact ⟨rfl, fun i => (responseIsNeverRead i _ .zero).symm⟩
  · intro s t htake hkind
    have hnot := not_full_of_take s t htake hkind
    cases htake.symm.trans (exec_take_of_not_full s hnot)
    exact ⟨rfl, exec_take_of_not_full _ hnot⟩

/-! ## The checksum law (R126) -/

/-- A word is the four bytes it splits into. -/
theorem append_splitFrame (acc : BitVec 32) :
    (splitFrame acc).address ++ (splitFrame acc).addressComplement ++ (splitFrame acc).command ++
      (splitFrame acc).commandComplement = acc := by
  simp (disch := omega) only [splitFrame, BitVec.extractLsb'_append_extractLsb'_eq_extractLsb']
  exact BitVec.extractLsb'_eq_self

theorem valid_splitFrame_necWord (a c : Byte) : (splitFrame (necWord a c)).valid = true := by
  rw [splitFrame_necWord]
  exact valid_of_complements a c

/-- The words that validate are the frame words of NECFRAME. -/
theorem valid_splitFrame_iff_mem_range (acc : BitVec 32) :
    (splitFrame acc).valid = true ↔ acc ∈ Set.range (Function.uncurry necWord) := by
  constructor
  · intro hvalid
    obtain ⟨haddr, hcmd⟩ := (valid_iff _).1 hvalid
    refine ⟨((splitFrame acc).address, (splitFrame acc).command), ?_⟩
    rw [Function.uncurry_apply_pair, necWord, haddr, hcmd, BitVec.not_not, BitVec.not_not, ← haddr,
      ← hcmd, append_splitFrame]
  · rintro ⟨⟨a, c⟩, rfl⟩
    exact valid_splitFrame_necWord a c

theorem necWord_injective : Function.Injective (Function.uncurry necWord) := by
  intro ⟨a, c⟩ ⟨b, d⟩ h
  have hsplit := congrArg splitFrame h
  rw [Function.uncurry_apply_pair, Function.uncurry_apply_pair, splitFrame_necWord,
    splitFrame_necWord] at hsplit
  cases hsplit
  rfl

/-- The complement pairs of a valid frame, bit by bit. -/
theorem getLsbD_of_valid (acc : BitVec 32) (hvalid : (splitFrame acc).valid = true) (j : Nat)
    (hj : j < 8) : acc.getLsbD (24 + j) = !acc.getLsbD (16 + j) ∧
      acc.getLsbD (8 + j) = !acc.getLsbD j := by
  obtain ⟨haddr, hcmd⟩ := (valid_iff _).1 hvalid
  have haddrBit := congrArg (·.getLsbD j) haddr
  have hcmdBit := congrArg (·.getLsbD j) hcmd
  simpa [splitFrame, hj] using And.intro haddrBit hcmdBit

/-- Every bit of a valid frame has its complement at the same place of the paired byte. -/
theorem exists_complement_bit (n : Nat) (h : n < 32) : ∃ m, m ≠ n ∧
    ∀ acc : BitVec 32, (splitFrame acc).valid = true → acc.getLsbD m = !acc.getLsbD n := by
  obtain ⟨j, hj, hn⟩ : ∃ j < 8, n = j ∨ n = 8 + j ∨ n = 16 + j ∨ n = 24 + j :=
    ⟨n % 8, by omega, by omega⟩
  have hpairs (acc : BitVec 32) (hvalid : (splitFrame acc).valid = true) :=
    getLsbD_of_valid acc hvalid j hj
  rcases hn with rfl | rfl | rfl | rfl
  · exact ⟨8 + n, by omega, fun acc hvalid => (hpairs acc hvalid).2⟩
  · exact ⟨j, by omega, fun acc hvalid => by simp [(hpairs acc hvalid).2]⟩
  · exact ⟨24 + j, by omega, fun acc hvalid => (hpairs acc hvalid).1⟩
  · exact ⟨16 + j, by omega, fun acc hvalid => by simp [(hpairs acc hvalid).1]⟩

/-- A flipped bit agrees with its complement bit, which is not flipped. -/
theorem not_valid_of_flip (acc : BitVec 32) (n : Nat) (h : n < 32)
    (hvalid : (splitFrame acc).valid = true) :
    (splitFrame (acc ^^^ BitVec.twoPow 32 n)).valid = false := by
  obtain ⟨m, hne, hpair⟩ := exists_complement_bit n h
  rw [← Bool.not_eq_true]
  intro hflipped
  have hkept : (acc ^^^ BitVec.twoPow 32 n).getLsbD m = acc.getLsbD m := by simp [hne.symm]
  have hflip : (acc ^^^ BitVec.twoPow 32 n).getLsbD n = !acc.getLsbD n := by simp [h]
  have hsame := hpair _ hflipped
  rw [hkept, hflip, Bool.not_not, hpair acc hvalid] at hsame
  exact Bool.not_ne_self _ hsame

theorem card_byte : Nat.card Byte = 2 ^ 8 :=
  (Nat.card_congr BitVec.equivFin.toEquiv).trans (Nat.card_fin _)

theorem takeFrame_ok_iff_valid (rom : Memory) (d : Decoder) (h : d.bits.toNat = 32) :
    (takeFrame rom d).2.kind = .ok ↔ (splitFrame d.acc).valid = true := by
  rw [takeFrame_of_full rom d h]
  rcases frameResponse_cases rom (splitFrame d.acc) with ⟨hvalid, hr⟩ | ⟨hvalid, hr⟩ <;>
    simp [hvalid, hr]

/-- The words a take answers OK to, over any ROM and in any phase, are the frame words. -/
theorem take_ok_iff_mem_range (v : BitVec 32) :
    (∀ (rom : Memory) (st : Phase), (takeFrame rom { st := st, bits := 32, acc := v }).2.kind = .ok) ↔
      v ∈ Set.range (Function.uncurry necWord) := by
  rw [← valid_splitFrame_iff_mem_range]
  exact ⟨fun hok => (takeFrame_ok_iff_valid [] ⟨.reset, 32, v⟩ rfl).1 (hok [] .reset),
    fun hvalid rom st => (takeFrame_ok_iff_valid rom ⟨st, 32, v⟩ rfl).2 hvalid⟩

/-- Settles O31: a frame word validates, each of its bits is tied to another, and the words that validate
are as many as the pairs of an address and a command. -/
theorem checksumLaw : Obligations.ChecksumLaw := by
  refine ⟨fun a c s hfull hacc => ⟨_, exec_take_of_full s hfull, ?_⟩,
    fun a c n s hn hfull hacc => ⟨_, exec_take_of_full s hfull, ?_⟩, ?_⟩
  · have hword : s.dec.acc = necWord a c := hacc
    rw [hword, splitFrame_necWord, frameResponse, if_pos (valid_of_complements a c)]
    exact ⟨rfl, rfl, rfl⟩
  · have hinvalid := not_valid_of_flip (necWord a c) n hn (valid_splitFrame_necWord a c)
    have hword : s.dec.acc = necWord a c ^^^ BitVec.twoPow 32 n := hacc
    rw [complete_resp, withStatus_kind, frameResponse_kind, hword, hinvalid]
    rfl
  · rw [Nat.card_congr (Equiv.subtypeEquivRight take_ok_iff_mem_range),
      Nat.card_range_of_injective necWord_injective, Nat.card_prod, card_byte, ← pow_add]

/-! ## The result of a step (R152) -/

/-- Only a data space in PulseMarker completes a frame that was not yet held. -/
theorem feed_completes_iff (w : Width) (d : Decoder) (h : d.bits.toNat < 32) :
    (feed w d).bits.toNat = 32 ↔ d.st = .pulseMarker ∧ d.bits.toNat = 31 ∧
      ((350 ≤ w.toNat ∧ w.toNat ≤ 750) ∨ (1400 ≤ w.toNat ∧ w.toNat ≤ 1900)) := by
  constructor
  · intro hfull
    rcases feed_cases w d with hf | ⟨-, -, hf⟩ | ⟨-, -, hf⟩ | ⟨-, -, hf⟩ | ⟨hst, hw, -, hf⟩ |
      ⟨hst, hw, -, hf⟩ <;> rw [hf] at hfull
    · cases hfull
    · exact absurd hfull h.ne
    · exact absurd hfull h.ne
    · exact absurd hfull h.ne
    · obtain ⟨-, hbits, -⟩ := shiftIn_of_lt false .data0 d h
      exact ⟨hst, by omega, .inl ((isShortSpace_iff w).1 hw)⟩
    · obtain ⟨-, hbits, -⟩ := shiftIn_of_lt true .data1 d h
      exact ⟨hst, by omega, .inr ((isLongSpace_iff w).1 hw)⟩
  · rintro ⟨hst, hbits, hshort | hlong⟩
    · rw [feed_of_pulseMarker w d hst, if_pos hshort, (shiftIn_of_lt _ _ d h).2.1, hbits]
    · rw [feed_of_pulseMarker w d hst, if_neg (by omega), if_pos hlong,
        (shiftIn_of_lt _ _ d h).2.1, hbits]

/-- A step's answer is that of a take of the registers its feed left. -/
theorem stepOp_kind (w : Width) (s : State) :
    (stepOp w s).resp.kind = (takeFrame s.rom (feed w s.dec)).2.kind := rfl

theorem exec_eq_stepOp (i : Instr) (w : Width) (s : State)
    (h : i = .stepW w ∨ ∃ pol t1 t2, i = .stepCap pol t1 t2 ∧ w = captureWidth t1 t2) :
    exec i s = .next (stepOp w s) := by
  rcases h with rfl | ⟨pol, t1, t2, rfl, rfl⟩
  · exact exec_stepW w s
  · exact exec_stepCap pol t1 t2 s

/-- Settles O37: a step takes the registers its feed left, which hold a complete frame only if the feed
completed it. -/
theorem stepResultFollowsItsFeed : Obligations.StepResultFollowsItsFeed := by
  intro i w s hi hlt
  refine ⟨stepOp w s, exec_eq_stepOp i w s hi, feed_completes_iff w s.dec hlt, fun hfull => ?_,
    fun hnot hst => ?_, fun hnot hst => ?_⟩ <;> rw [stepOp_kind]
  · rw [takeFrame_of_full _ _ hfull]
    exact frameResponse_kind_cases _ _
  · rw [takeFrame_of_not_full _ _ hnot]
    exact if_pos hst
  · rw [takeFrame_of_not_full _ _ hnot]
    exact if_neg hst

end Sys2Proof.Machine
end

section
/-! SUPPORT. The command map (43_command_map.md): the reset ROM's two values, and the ROM whose rows are
built from a whole table, one index after another (R141, R192 step 1). -/

namespace Sys2Proof.Machine

/-- The default ROM with the entry of each listed index set from a table. -/
def Memory.ofTable (table : Byte → Byte) (indexes : List Byte) : Memory :=
  indexes.foldr (fun i rows => rows.setRow i (table i)) []

theorem ofTable_cons (table : Byte → Byte) (i : Byte) (indexes : List Byte) :
    Memory.ofTable table (i :: indexes) = (Memory.ofTable table indexes).setRow i (table i) := rfl

theorem wf_ofTable (table : Byte → Byte) (indexes : List Byte) :
    (Memory.ofTable table indexes).wf := by
  induction indexes with
  | nil => exact wf_nil
  | cons i indexes ih => exact setRow_keeps_wf i (table i) _ ih

theorem read_ofTable_of_mem (table : Byte → Byte) (indexes : List Byte) (c : Byte)
    (h : c ∈ indexes) : (Memory.ofTable table indexes).read c = table c := by
  induction indexes with
  | nil => cases h
  | cons i indexes ih =>
    rw [ofTable_cons]
    by_cases hc : c = i
    · rw [hc, read_setRow_same i (table i) _ (wf_ofTable table indexes)]
    · rw [read_setRow_other i c (table i) _ hc, ih (List.mem_of_ne_of_mem hc h)]

/-- Every index of the ROM. -/
def allBytes : List Byte := (List.finRange 256).map BitVec.ofFin

theorem mem_allBytes (c : Byte) : c ∈ allBytes :=
  List.mem_map_of_mem (List.mem_finRange c.toFin)

/-- A ROM built from a table over every index reads as the table. -/
theorem read_ofTable_allBytes (table : Byte → Byte) (c : Byte) :
    (Memory.ofTable table allBytes).read c = table c :=
  read_ofTable_of_mem table allBytes c (mem_allBytes c)

theorem romDefault_of_ne (c : Byte) (h : c ≠ 0xA2) : romDefault c = 0x78 := if_neg h

/-- Settles O46: the reset ROM has no rows, and building a row for each index of a table keeps the
canonical form and reads back as the table. -/
theorem romContentsAndParameter : Obligations.RomContentsAndParameter := by
  obtain ⟨-, hreset⟩ := reset_rom_wf
  refine ⟨hreset, romDefault_of_ne, fun rom hrow =>
    ⟨Memory.ofTable rom allBytes, wf_ofTable rom allBytes, ?_, read_ofTable_allBytes rom⟩⟩
  exact (read_ofTable_allBytes rom 0xA2).trans hrow

end Sys2Proof.Machine
end

section
/-! SUPPORT. Sequencing (44_sequencing.md): STEP_W on an explicit width, and CLEAR beside hardware
reset (70_reset_and_hazards.md section 1). -/

namespace Sys2Proof.Machine

/-- Settles O33: the feed leaves its completion, and the step is a take of that. -/
theorem stepWIsFeedThenTake : Obligations.StepWIsFeedThenTake := by
  intro w s
  obtain ⟨v, htake, hstep⟩ := stepOp_eq_take_of_feedOp w s
  refine ⟨feedOp w s, v, exec_feedW w s, htake, ?_⟩
  rw [exec_stepW, hstep]

/-- The CLEAR word of R73. -/
theorem decode_clearWord : decode 7 = .ok .clear := decode_encode .clear

/-- A step on the CLEAR word completes the zero registers with the default response. -/
theorem step_of_clearWord (s : State) (rest : List PortInput)
    (hin : s.inputs = { rst := false, word := some 7 } :: rest) :
    step s = .next (complete { s with inputs := rest } Decoder.zero .zero) := by
  rw [stepRunsTheDecodedOperation s 7 rest .clear hin decode_clearWord, exec_clear]

/-- Settles O13: both steps leave the zero registers and the ROM they found. -/
theorem clearAndResetLeaveTheSameRegisters : Obligations.ClearAndResetLeaveTheSameRegisters := by
  intro s r rest more word hclear hrst
  exact ⟨_, _, step_of_clearWord s rest hclear, step_of_rst r word more hrst, rfl, rfl, rfl, rfl, rfl⟩

end Sys2Proof.Machine
end

section
/-! SUPPORT. Exceptions (60_exceptions.md): the ILLEGAL step, that every step goes on, and the outcome
code of every word. -/

namespace Sys2Proof.Machine

/-! ## The ILLEGAL outcome (R170) -/

theorem step_of_illegal_word (s : State) (w : Word) (rest : List PortInput) (e : Rejection)
    (hin : s.inputs = { rst := false, word := some w } :: rest) (hdec : decode w = .error e) :
    step s = .next (raiseIllegal { s with inputs := rest }) := by
  simp [step, hin, servePort, serveWord, hdec]

/-- A step that serves a reset or a word does not depend on the response before it. The premise is
needed: with nothing to serve, the response is held (log entry 8). -/
theorem step_ignores_resp (s : State) (p : PortInput) (more : List PortInput) (q : Response)
    (hin : s.inputs = p :: more) (hserved : p.rst = true ∨ p.word.isSome = true) :
    step { s with resp := q } = step s := by
  obtain ⟨rst, word⟩ := p
  cases rst with
  | true =>
    rw [step_of_rst s word more hin]
    exact step_of_rst { s with resp := q } word more hin
  | false =>
    obtain ⟨w, rfl⟩ := Option.isSome_iff_exists.1 (hserved.resolve_left Bool.false_ne_true)
    cases hdec : decode w with
    | ok i =>
      rw [stepRunsTheDecodedOperation s w more i hin hdec,
        stepRunsTheDecodedOperation { s with resp := q } w more i hin hdec]
      exact responseIsNeverRead i { s with inputs := more } q
    | error e =>
      rw [step_of_illegal_word s w more e hin hdec]
      exact step_of_illegal_word { s with resp := q } w more e hin hdec

/-- Settles O9: the ILLEGAL outcome depends on no ROM and writes only the response, which the next word
or reset does not depend on. -/
theorem illegalWordChangesNoRegister : Obligations.IllegalWordChangesNoRegister := by
  intro s w rest e hin hdec
  exact ⟨_, step_of_illegal_word s w rest e hin hdec, rfl, rfl, rfl,
    fun rom => step_of_illegal_word { s with rom := rom } w rest e hin hdec,
    fun p more hrest hserved => step_ignores_resp { s with inputs := rest } p more _ hrest hserved⟩

/-! ## No fault state (R171) -/

/-- Settles O10: a step waits, resets, runs an operation, all of which go on, or is ILLEGAL. -/
theorem everyStepGoesOn : Obligations.EveryStepGoesOn := by
  intro s
  match hin : s.inputs with
  | [] => exact ⟨_, step_of_empty s hin⟩
  | ⟨true, word⟩ :: rest => exact ⟨_, step_of_rst s word rest hin⟩
  | ⟨false, none⟩ :: rest => exact ⟨_, step_of_no_word s rest hin⟩
  | ⟨false, some w⟩ :: rest =>
    cases hdec : decode w with
    | ok i =>
      rw [stepRunsTheDecodedOperation s w rest i hin hdec]
      exact exec_total i _
    | error e => exact ⟨_, step_of_illegal_word s w rest e hin hdec⟩

/-! ## The outcome codes (R172) -/

/-- An operation's kind is that of the take of the registers its take sees, and NONE if it takes none. -/
theorem exec_kind (i : Instr) (s : State) : ∃ t, exec i s = .next t ∧
    t.resp.kind = (takeView i s.dec).elim .none fun d => (takeFrame s.rom d).2.kind := by
  obtain ⟨t, h⟩ := exec_total i s
  refine ⟨t, h, ?_⟩
  rcases exec_cases i s t h with ⟨rfl, rfl⟩ | ⟨_, _, _, rfl, rfl⟩ | ⟨_, rfl, rfl⟩ | ⟨rfl, rfl⟩ |
    ⟨_, _, _, rfl, rfl⟩ | ⟨_, rfl, rfl⟩ | ⟨_, rfl, rfl⟩ | ⟨rfl, rfl⟩ <;> rfl

/-- The four answers of a take (R121 to R124): a complete frame by its validity, else by the phase. -/
theorem takeFrame_kind (rom : Memory) (d : Decoder) : (takeFrame rom d).2.kind =
    if d.bits.toNat = 32 then if (splitFrame d.acc).valid then .ok else .implausible
    else if d.st = .reset then .noData else .pending := by
  by_cases hfull : d.bits.toNat = 32
  · rw [takeFrame_of_full rom d hfull, frameResponse_kind, if_pos hfull]
  · rw [takeFrame_of_not_full rom d hfull, if_neg hfull]

/-- Settles O40: a rejected word is ILLEGAL, and any other has the kind of its operation's take. -/
theorem outcomeCodesByOperation : Obligations.OutcomeCodesByOperation := by
  intro s w rest hin
  cases hdec : decode w with
  | error e => exact ⟨_, step_of_illegal_word s w rest e hin hdec, fun _ _ => rfl, nofun, nofun⟩
  | ok i =>
    obtain ⟨t, hexec, hkind⟩ := exec_kind i { s with inputs := rest }
    refine ⟨t, (stepRunsTheDecodedOperation s w rest i hin hdec).trans hexec, nofun,
      fun j hj hnone => ?_, fun j d hj hsome => ?_⟩ <;> cases hj
    · rw [hkind, hnone]
      rfl
    · rw [hkind, hsome, Option.elim_some, takeFrame_kind]
      exact ⟨fun hfull hvalid => by rw [if_pos hfull, if_pos hvalid],
        fun hfull hinvalid => by simp [hfull, hinvalid],
        fun hnot hst => by rw [if_neg hnot, if_pos hst],
        fun hnot hst => by rw [if_neg hnot, if_neg hst]⟩

end Sys2Proof.Machine
end
